-- ==== Sys2Proof/Word.lean ====
section
/-! DEFINITION. The machine's basic data: bytes, ticks, lines and bitstreams (spec 00_scope.md R5, R10, R11; 10_state.md R27). -/

namespace Sys2Proof

/-- One 8-bit byte of a line (R5, R10). -/
abbrev Byte := BitVec 8

/-- A timestamp: a 64-bit unsigned count of ticks (R27). -/
abbrev Tick := BitVec 64

/-- A line, or a piece of one: a finite sequence of bytes, index 0 first (R10). -/
abbrev Line := List Byte

/-- A bitstream: a finite sequence of bits, bit 0 first (R11). -/
abbrev Bits := List Bool

end Sys2Proof
end

