-- ==== Sys2Proof/Config.lean ====
section
/-! DEFINITION. The build parameters (spec 00_scope.md R7, R8, R9) and the default operands of RESET (10_state.md R24, R25). -/

namespace Sys2Proof

/-- The parameters fixed when the engine is built. `maxLine = none` is `P_MAX_LINE = INF` (R9). -/
structure Build where
  maxFragments : Nat
  seqIdMax     : Nat
  maxLine      : Option Nat
  deriving DecidableEq, Repr

/-- The reference build: `P_MAX_FRAGMENTS = 9` (R7), `P_SEQ_ID_MAX = 9` (R8), `P_MAX_LINE = INF` (R9). -/
def Build.reference : Build := { maxFragments := 9, seqIdMax := 9, maxLine := none }

/-- The default of RESET's operand `max_groups` (R24). -/
def defaultMaxGroups : Nat := 16

/-- The default of RESET's operand `idle_ticks` (R25). -/
def defaultIdleTicks : Tick := 5000#64

end Sys2Proof
end

