-- ==== Sys2Proof/Syntax.lean ====
section
/-! DEFINITION. The instructions: one constructor per row of spec/opcode_table.json, in its three groups (spec 30_encoding.md R85):
host operations, sentence ids, message types. -/

namespace Sys2Proof

/-! ### Operations as the host presents them (R60) -/

/-- One operand of a presented operation. `absent` is an operand the host does not give (R24, R25). -/
inductive Operand where
  | absent
  | nat  (n : Nat)
  | tick (t : Tick)
  | line (l : Line)
  deriving DecidableEq, Repr

/-- What the host presents at the operation port: an operation code and its operands (R60). -/
structure OpWord where
  code     : Byte
  operands : List Operand
  deriving DecidableEq, Repr

/-! ### Sentences (R61, R138) -/

/-- The start byte: `!` or `$` (R64). -/
inductive Start where
  | bang
  | dollar
  deriving DecidableEq, Repr

/-- The sentence id: `VDM` or `VDO` (R64). -/
inductive Sid where
  | vdm
  | vdo
  deriving DecidableEq, Repr

/-- The fields of a sentence other than its sentence id (R138). -/
structure SentenceFields where
  start    : Start
  talker1  : Byte
  talker2  : Byte
  count    : Nat
  number   : Nat
  seqEmpty : Bool
  seq      : Nat
  channel  : Option Byte
  payload  : Line
  fill     : Fin 6
  checksum : Byte
  deriving DecidableEq, Repr

/-- A parsed sentence (R138). -/
structure RawSentence where
  sid    : Sid
  fields : SentenceFields
  deriving DecidableEq, Repr

/-- The parsed fields that a Decoded record carries: all of the sentence but its payload (R101, R138). -/
structure Meta where
  start    : Start
  talker1  : Byte
  talker2  : Byte
  sid      : Sid
  channel  : Option Byte
  seqEmpty : Bool
  seq      : Nat
  count    : Nat
  number   : Nat
  fill     : Fin 6
  checksum : Byte
  deriving DecidableEq, Repr

/-! ### Errors (R240 to R247) -/

/-- The Malformed sub-codes, in check order (R139, R242). -/
inductive Malformed where
  | lineTooLong
  | noStart
  | noStar
  | badChecksumField
  | fieldCount
  | badAddress
  | badCount
  | badNumber
  | numberExceedsCount
  | badSeqId
  | badChannel
  | badFill
  deriving DecidableEq, Repr

/-- The failures a line or its message can meet (R240), with their contents (R242 to R247).
`IncompleteReassembly` (code 3) is not among them: it is the Evicted record (R244). -/
inductive ErrorKind where
  | malformed (why : Malformed)
  | checksumMismatch (computed supplied : Byte)
  | invalidArmor (index : Nat) (byte : Byte)
  | truncated (type : Option Nat) (got need : Nat)
  | unsupportedType (type : Nat)
  deriving DecidableEq, Repr

/-! ### Messages (R75, R76, R77) -/

/-- The fields of types 1, 2 and 3 after the type, as bits (R75). -/
structure PositionFields where
  repeatInd : BitVec 2
  mmsi      : BitVec 30
  navStatus : BitVec 4
  rot       : BitVec 8
  sog       : BitVec 10
  accuracy  : BitVec 1
  lon       : BitVec 28
  lat       : BitVec 27
  cog       : BitVec 12
  heading   : BitVec 9
  second    : BitVec 6
  deriving DecidableEq, Repr

/-- The fields of type 4 after the type, as bits (R76). -/
structure BaseStationFields where
  repeatInd : BitVec 2
  mmsi      : BitVec 30
  year      : BitVec 14
  month     : BitVec 4
  day       : BitVec 5
  hour      : BitVec 5
  minute    : BitVec 6
  second    : BitVec 6
  accuracy  : BitVec 1
  lon       : BitVec 28
  lat       : BitVec 27
  epfd      : BitVec 4
  deriving DecidableEq, Repr

/-- The fields of type 5 after the type, as bits; a text field is its packed 6-bit characters, character 0 highest (R77). -/
structure StaticFields where
  repeatInd   : BitVec 2
  mmsi        : BitVec 30
  aisVersion  : BitVec 2
  imo         : BitVec 30
  callsign    : BitVec 42
  shipname    : BitVec 120
  shipType    : BitVec 8
  toBow       : BitVec 9
  toStern     : BitVec 9
  toPort      : BitVec 6
  toStarboard : BitVec 6
  epfd        : BitVec 4
  etaMonth    : BitVec 4
  etaDay      : BitVec 5
  etaHour     : BitVec 5
  etaMinute   : BitVec 6
  draught     : BitVec 8
  destination : BitVec 120
  deriving DecidableEq, Repr

/-- A message as the bitstream spells it: its type selects the layout (R74). -/
inductive Message where
  | msg1 (f : PositionFields)
  | msg2 (f : PositionFields)
  | msg3 (f : PositionFields)
  | msg4 (f : BaseStationFields)
  | msg5 (f : StaticFields)
  deriving DecidableEq, Repr

/-! ### Instructions -/

/-- What a FEED passes to its sentence-level stage beside the sentence: the line number it read, its operand `line` and its
operand `now` (R104). -/
structure FeedContext where
  lineNo : Tick
  raw    : Line
  now    : Tick
  deriving DecidableEq, Repr

/-- What the stages before it pass to the extraction stage beside the bitstream: the line number, the parsed fields and the
fill-bit count applied (R101, R104). -/
structure MessageContext where
  lineNo   : Tick
  info     : Meta
  fillUsed : Fin 6
  deriving DecidableEq, Repr

/-- The instructions, one constructor per row of the opcode table (R85). The first three are the operations of the port
(R109). `vdm` and `vdo` are the sentence-level stage of a FEED and `msg1` to `msg5` its extraction stage: an instruction of one
level is decoded and run by the level above it within the same step (log entry 1). -/
inductive Instr where
  | reset (maxGroups : Option Nat) (idleTicks : Option Tick)
  | feed  (line : Line) (now : Tick)
  | tick  (now : Tick)
  | vdm   (c : FeedContext) (f : SentenceFields)
  | vdo   (c : FeedContext) (f : SentenceFields)
  | msg1  (c : MessageContext) (bitlen : Nat) (f : PositionFields)
  | msg2  (c : MessageContext) (bitlen : Nat) (f : PositionFields)
  | msg3  (c : MessageContext) (bitlen : Nat) (f : PositionFields)
  | msg4  (c : MessageContext) (bitlen : Nat) (f : BaseStationFields)
  | msg5  (c : MessageContext) (bitlen : Nat) (f : StaticFields)
  deriving DecidableEq, Repr

/-- The three levels at which an instruction is written (R85): a presented operation, the line of a sentence, the bitstream
of a message. -/
inductive Encoding where
  | operation (w : OpWord)
  | sentence  (c : FeedContext) (line : Line)
  | message   (c : MessageContext) (bits : Bits)
  deriving DecidableEq, Repr

/-- Why an encoding spells no instruction. -/
inductive DecodeError where
  | unknownOpCode (code : Byte)
  | wrongOperands (code : Byte)
  | notASentence  (why : ErrorKind)
  | notAMessage   (why : ErrorKind)
  deriving DecidableEq, Repr

end Sys2Proof
end

