-- ==== Sys2Proof/WellFormed.lean ====
section
/-! DEFINITION. Which instructions the spec gives: the ranges of their operands (spec 30_encoding.md R60 to R67; 41_sentence_parser.md
R130 to R137; 44_field_extractor.md R193). The ranges of a sentence depend on the build parameters (R7, R8). -/

namespace Sys2Proof

/-- An uppercase ASCII letter (R64). -/
def isUpper (c : Byte) : Bool := decide (0x41 ≤ c.toNat ∧ c.toNat ≤ 0x5A)

/-- A byte that neither ends a field nor ends the body (R61: any byte other than `,` and `*`). -/
def isFieldByte (c : Byte) : Bool := decide (c ≠ 0x2C#8 ∧ c ≠ 0x2A#8)

/-- The fields of a sentence are in the ranges of R64 to R67 and R130 to R137. -/
def SentenceFields.wellFormed (b : Build) (f : SentenceFields) : Bool :=
  isUpper f.talker1 && isUpper f.talker2 &&
  decide (1 ≤ f.count ∧ f.count ≤ b.maxFragments) &&
  decide (1 ≤ f.number ∧ f.number ≤ f.count) &&
  decide (f.seq ≤ b.seqIdMax) &&
  (!f.seqEmpty || decide (f.seq = 0)) &&
  f.channel.all isFieldByte &&
  f.payload.all isFieldByte

/-- The instruction is one the spec gives: RESET's `max_groups` is at least 1 (R60), a sentence's fields are in range, and a
message's bitstream reaches the end of its layout (R193). -/
def Instr.wellFormed (b : Build) : Instr → Bool
  | .reset maxGroups _ => maxGroups.all (fun n => decide (1 ≤ n))
  | .feed _ _          => true
  | .tick _            => true
  | .vdm _ f           => f.wellFormed b
  | .vdo _ f           => f.wellFormed b
  | .msg1 _ bitlen _   => decide (143 ≤ bitlen)
  | .msg2 _ bitlen _   => decide (143 ≤ bitlen)
  | .msg3 _ bitlen _   => decide (143 ≤ bitlen)
  | .msg4 _ bitlen _   => decide (138 ≤ bitlen)
  | .msg5 _ bitlen _   => decide (422 ≤ bitlen)

end Sys2Proof
end

