-- ==== Sys2Proof/Decode.lean ====
section
/-! DEFINITION. The decoder and the encoder at the three levels of R85. Operations: spec 30_encoding.md R60, 40_operations.md R109.
Sentences: 41_sentence_parser.md R120 to R141. Armor and bitstreams: 43_armor_decoder.md R180 to R186. Messages: 44_field_extractor.md
R190 to R194 with the layouts of 30_encoding.md R75 to R77. -/

namespace Sys2Proof

/-! ### Bits (R11, R12) -/

/-- The bits of a value, most significant first (R42, R181). -/
def bitsOf {w : Nat} (v : BitVec w) : Bits := (List.range w).map (fun i => v.getMsbD i)

/-- The unsigned value of a bit sequence whose first bit is the most significant (R11). -/
def natOfBits (bs : Bits) : Nat := bs.foldl (fun acc bit => 2 * acc + bit.toNat) 0

/-- `U(a, w)`: the unsigned value of bits `a` to `a + w - 1` (R11). -/
def U (bs : Bits) (a w : Nat) : Nat := natOfBits ((bs.drop a).take w)

/-- `S(a, w)`: the same bits read as a two's-complement number (R11). -/
def S (bs : Bits) (a w : Nat) : Int :=
  if bs.getD a false then (U bs a w : Int) - 2 ^ w else (U bs a w : Int)

/-- The field of width `w` whose most significant bit is bit `a` (R79). -/
def field (bs : Bits) (a w : Nat) : BitVec w := BitVec.ofNat w (U bs a w)

/-! ### Operations (R60, R109) -/

/-- An operand that may be left out: a natural number or nothing. -/
def natOrAbsent : Operand → Option (Option Nat)
  | .absent => some none
  | .nat n  => some (some n)
  | .tick _ => none
  | .line _ => none

/-- An operand that may be left out: a tick count or nothing. -/
def tickOrAbsent : Operand → Option (Option Tick)
  | .absent => some none
  | .tick t => some (some t)
  | .nat _  => none
  | .line _ => none

/-- RESET's operands: `max_groups`, then `idle_ticks` (R60). -/
def decodeReset : List Operand → Option Instr
  | [m, t] =>
    match natOrAbsent m, tickOrAbsent t with
    | some m', some t' => some (.reset m' t')
    | _, _ => none
  | _ => none

/-- FEED's operands: `line`, then `now` (R60). -/
def decodeFeed : List Operand → Option Instr
  | [.line l, .tick t] => some (.feed l t)
  | _ => none

/-- TICK's operand: `now` (R60). -/
def decodeTick : List Operand → Option Instr
  | [.tick t] => some (.tick t)
  | _ => none

/-- The instruction with these operands, or the refusal of an operand of the wrong type (R109). -/
def orWrongOperands (code : Byte) : Option Instr → Except DecodeError Instr
  | some i => .ok i
  | none   => .error (.wrongOperands code)

/-- The operation a presented word spells: op codes 0, 1 and 2, and no other (R60, R109). -/
def decodeOp (w : OpWord) : Except DecodeError Instr :=
  if w.code = 0#8 then orWrongOperands w.code (decodeReset w.operands)
  else if w.code = 1#8 then orWrongOperands w.code (decodeFeed w.operands)
  else if w.code = 2#8 then orWrongOperands w.code (decodeTick w.operands)
  else .error (.unknownOpCode w.code)

/-! ### Sentences (R120 to R141) -/

/-- CR or LF (R121). -/
def isTerminator (c : Byte) : Bool := c == 0x0D#8 || c == 0x0A#8

/-- The line without its trailing CR and LF bytes (R121). -/
def stripTerminators (line : Line) : Line := line.rdropWhile isTerminator

/-- The pieces of `s` between the occurrences of `b`, empty pieces kept (R10). -/
def splitAtByte (b : Byte) : Line → List Line
  | [] => [[]]
  | c :: cs =>
    if c = b then [] :: splitAtByte b cs
    else match splitAtByte b cs with
      | [] => [[c]]
      | f :: fs => (c :: f) :: fs

/-- The bytes before the first `*` and the bytes after it, if there is one (R125). -/
def splitAtStar : Line → Option (Line × Line)
  | [] => none
  | c :: cs =>
    if c = 0x2A#8 then some ([], cs)
    else match splitAtStar cs with
      | none => none
      | some (before, after) => some (c :: before, after)

/-- A decimal digit (R65). -/
def isDigit (c : Byte) : Bool := decide (0x30 ≤ c.toNat ∧ c.toNat ≤ 0x39)

/-- `dec(s)`: the decimal value of one or more digits, most significant first (R123). -/
def dec (s : Line) : Option Nat :=
  if s.isEmpty || !s.all isDigit then none
  else some (s.foldl (fun acc c => 10 * acc + (c.toNat - 0x30)) 0)

/-- `hexval(c)`, for a hexadecimal digit of either case (R123). -/
def hexVal (c : Byte) : Option Nat :=
  if 0x30 ≤ c.toNat ∧ c.toNat ≤ 0x39 then some (c.toNat - 0x30)
  else if 0x41 ≤ c.toNat ∧ c.toNat ≤ 0x46 then some (c.toNat - 0x41 + 10)
  else if 0x61 ≤ c.toNat ∧ c.toNat ≤ 0x66 then some (c.toNat - 0x61 + 10)
  else none

/-- The checksum field: exactly two hexadecimal digits, the first the high nibble (R126). -/
def hexPair : Line → Option Byte
  | [c1, c2] =>
    match hexVal c1, hexVal c2 with
    | some h, some l => some (BitVec.ofNat 8 (16 * h + l))
    | _, _ => none
  | _ => none

/-- The XOR of the bytes of a region (R127). -/
def xorBytes (region : Line) : Byte := region.foldl (fun acc c => acc ^^^ c) 0#8

/-- The start byte (R124). -/
def startOf (c : Byte) : Option Start :=
  if c = 0x21#8 then some .bang else if c = 0x24#8 then some .dollar else none

/-- The stripped line is over a finite `P_MAX_LINE` (R122). -/
def tooLong (b : Build) (t : Line) : Bool :=
  match b.maxLine with
  | none => false
  | some n => decide (n < t.length)

/-- What the framing checks find: the start byte, the bytes between it and the first `*`, and the supplied checksum. -/
structure Frame where
  start    : Start
  region   : Line
  supplied : Byte
  deriving DecidableEq, Repr

/-- The framing checks, in the order of R139: length, start byte, `*`, checksum field. -/
def frame (b : Build) (line : Line) : Except ErrorKind Frame :=
  let t := stripTerminators line
  if tooLong b t then .error (.malformed .lineTooLong)
  else match t with
    | [] => .error (.malformed .noStart)
    | c :: rest =>
      match startOf c with
      | none => .error (.malformed .noStart)
      | some start =>
        match splitAtStar rest with
        | none => .error (.malformed .noStar)
        | some (region, cf) =>
          match hexPair cf with
          | none => .error (.malformed .badChecksumField)
          | some supplied => .ok { start := start, region := region, supplied := supplied }

/-- The byte of a start (R64). -/
def startByte : Start → Byte
  | .bang   => 0x21#8
  | .dollar => 0x24#8

/-- The talker and the sentence id of an address field (R130). -/
def addressOf : Line → Option (Byte × Byte × Sid)
  | [s, t1, t2, c3, c4, c5] =>
    if (startOf s).isSome && isUpper t1 && isUpper t2 && c3 == 0x56#8 && c4 == 0x44#8 then
      if c5 = 0x4D#8 then some (t1, t2, .vdm)
      else if c5 = 0x4F#8 then some (t1, t2, .vdo)
      else none
    else none
  | _ => none

/-- The fragment count (R131). -/
def countOf (b : Build) (f : Line) : Option Nat :=
  match dec f with
  | none => none
  | some n => if 1 ≤ n ∧ n ≤ b.maxFragments then some n else none

/-- The fragment number, before it is held against the count (R132). -/
def numberOf (f : Line) : Option Nat :=
  match dec f with
  | none => none
  | some k => if 1 ≤ k then some k else none

/-- The sequential message id: whether the field is empty, and its value (R134, R135). -/
def seqOf (b : Build) (f : Line) : Option (Bool × Nat) :=
  if f.isEmpty then some (true, 0)
  else match dec f with
    | none => none
    | some q => if q ≤ b.seqIdMax then some (false, q) else none

/-- The channel: the field is empty or one byte (R136). -/
def channelOf : Line → Option (Option Byte)
  | []  => some none
  | [c] => some (some c)
  | _   => none

/-- The fill-bit count: exactly one digit `0` to `5` (R137). -/
def fillOf : Line → Option (Fin 6)
  | [c] =>
    if h : 0x30 ≤ c.toNat ∧ c.toNat - 0x30 < 6 then some ⟨c.toNat - 0x30, h.2⟩ else none
  | _ => none

/-- The field checks, in the order of R139: field count, address, fragment count, fragment number, number against count,
sequential message id, channel, fill. -/
def parseFields (b : Build) (fr : Frame) : List Line → Except ErrorKind RawSentence
  | [f0, f1, f2, f3, f4, f5, f6] =>
    match addressOf f0 with
    | none => .error (.malformed .badAddress)
    | some (t1, t2, sid) =>
      match countOf b f1 with
      | none => .error (.malformed .badCount)
      | some n =>
        match numberOf f2 with
        | none => .error (.malformed .badNumber)
        | some k =>
          if n < k then .error (.malformed .numberExceedsCount)
          else match seqOf b f3 with
            | none => .error (.malformed .badSeqId)
            | some (seqEmpty, seq) =>
              match channelOf f4 with
              | none => .error (.malformed .badChannel)
              | some ch =>
                match fillOf f6 with
                | none => .error (.malformed .badFill)
                | some fill =>
                  .ok { sid := sid
                        fields := { start := fr.start, talker1 := t1, talker2 := t2, count := n, number := k
                                    seqEmpty := seqEmpty, seq := seq, channel := ch, payload := f5, fill := fill
                                    checksum := fr.supplied } }
  | _ => .error (.malformed .fieldCount)

/-- `Parse(line)` (R120): framing, then the checksum (R127, R128), then the fields, in the order of R139. -/
def parse (b : Build) (line : Line) : Except ErrorKind RawSentence :=
  match frame b line with
  | .error e => .error e
  | .ok fr =>
    if xorBytes fr.region = fr.supplied then
      parseFields b fr (splitAtByte 0x2C#8 (startByte fr.start :: fr.region))
    else .error (.checksumMismatch (xorBytes fr.region) fr.supplied)

/-! ### Armor (R71, R180 to R185) -/

/-- The 6-bit value of an armor character, if it is one (R71). -/
def armorValue (c : Byte) : Option (BitVec 6) :=
  if 0x30 ≤ c.toNat ∧ c.toNat ≤ 0x57 then some (BitVec.ofNat 6 (c.toNat - 0x30))
  else if 0x60 ≤ c.toNat ∧ c.toNat ≤ 0x77 then some (BitVec.ofNat 6 (c.toNat - 0x38))
  else none

/-- The bits of the characters from index `i` on, or the lowest index whose byte is outside the alphabet (R181, R183). -/
def expandArmor : Nat → Line → Except ErrorKind Bits
  | _, [] => .ok []
  | i, c :: cs =>
    match armorValue c with
    | none => .error (.invalidArmor i c)
    | some v =>
      match expandArmor (i + 1) cs with
      | .error e => .error e
      | .ok bs => .ok (bitsOf v ++ bs)

/-- The bitstream length: `6n - fill` for `n >= 1` characters, and 0 for none (R182, R185). -/
def armorLength (n : Nat) (fill : Fin 6) : Nat := if 1 ≤ n then 6 * n - fill.val else 0

/-- `ArmorDecode(payload, fill)` (R180). -/
def armorDecode (payload : Line) (fill : Fin 6) : Except ErrorKind Bits :=
  match expandArmor 0 payload with
  | .error e => .error e
  | .ok bs => .ok (bs.take (armorLength payload.length fill))

/-! ### Messages (R190 to R194) -/

/-- The fields of a position report, bits 6 to 142 (R75, R200). -/
def positionFields (bs : Bits) : PositionFields where
  repeatInd := field bs 6 2
  mmsi      := field bs 8 30
  navStatus := field bs 38 4
  rot       := field bs 42 8
  sog       := field bs 50 10
  accuracy  := field bs 60 1
  lon       := field bs 61 28
  lat       := field bs 89 27
  cog       := field bs 116 12
  heading   := field bs 128 9
  second    := field bs 137 6

/-- The fields of a base-station report, bits 6 to 137 (R76, R214). -/
def baseStationFields (bs : Bits) : BaseStationFields where
  repeatInd := field bs 6 2
  mmsi      := field bs 8 30
  year      := field bs 38 14
  month     := field bs 52 4
  day       := field bs 56 5
  hour      := field bs 61 5
  minute    := field bs 66 6
  second    := field bs 72 6
  accuracy  := field bs 78 1
  lon       := field bs 79 28
  lat       := field bs 107 27
  epfd      := field bs 134 4

/-- The fields of a static and voyage message, bits 6 to 421 (R77, R220). -/
def staticFields (bs : Bits) : StaticFields where
  repeatInd   := field bs 6 2
  mmsi        := field bs 8 30
  aisVersion  := field bs 38 2
  imo         := field bs 40 30
  callsign    := field bs 70 42
  shipname    := field bs 112 120
  shipType    := field bs 232 8
  toBow       := field bs 240 9
  toStern     := field bs 249 9
  toPort      := field bs 258 6
  toStarboard := field bs 264 6
  epfd        := field bs 270 4
  etaMonth    := field bs 274 4
  etaDay      := field bs 278 5
  etaHour     := field bs 283 5
  etaMinute   := field bs 288 6
  draught     := field bs 294 8
  destination := field bs 302 120

/-- `REQ(t)`: the end of the last field the engine extracts, for the supported types (R190, R193). -/
def requiredLength (t : Nat) : Option Nat :=
  if t = 1 ∨ t = 2 ∨ t = 3 then some 143
  else if t = 4 then some 138
  else if t = 5 then some 422
  else none

/-- The message of a supported type `t` (R74). -/
def messageOfType (t : Nat) (bs : Bits) : Message :=
  if t = 1 then .msg1 (positionFields bs)
  else if t = 2 then .msg2 (positionFields bs)
  else if t = 3 then .msg3 (positionFields bs)
  else if t = 4 then .msg4 (baseStationFields bs)
  else .msg5 (staticFields bs)

/-- The checks of `Extract(bs)` and the layout they select (R190): `L < 6`, then the type, then the required length. -/
def decodeMessage (bs : Bits) : Except ErrorKind Message :=
  if bs.length < 6 then .error (.truncated none bs.length 6)
  else match requiredLength (U bs 0 6) with
    | none => .error (.unsupportedType (U bs 0 6))
    | some need =>
      if bs.length < need then .error (.truncated (some (U bs 0 6)) bs.length need)
      else .ok (messageOfType (U bs 0 6) bs)

/-! ### The decoder -/

/-- The sentence instruction of a parsed sentence. -/
def RawSentence.toInstr (c : FeedContext) (r : RawSentence) : Instr :=
  match r.sid with
  | .vdm => .vdm c r.fields
  | .vdo => .vdo c r.fields

/-- The message instruction of a decoded message. -/
def Message.toInstr (c : MessageContext) (bitlen : Nat) : Message → Instr
  | .msg1 f => .msg1 c bitlen f
  | .msg2 f => .msg2 c bitlen f
  | .msg3 f => .msg3 c bitlen f
  | .msg4 f => .msg4 c bitlen f
  | .msg5 f => .msg5 c bitlen f

/-- The instruction an encoding spells, or the name of what is wrong with it. -/
def decode (b : Build) : Encoding → Except DecodeError Instr
  | .operation w => decodeOp w
  | .sentence c line =>
    match parse b line with
    | .error e => .error (.notASentence e)
    | .ok r => .ok (r.toInstr c)
  | .message c bits =>
    match decodeMessage bits with
    | .error e => .error (.notAMessage e)
    | .ok m => .ok (m.toInstr c bits.length)

/-! ### The encoder -/

/-- A decimal digit's byte (R65). -/
def digitByte (d : Nat) : Byte := BitVec.ofNat 8 (0x30 + d)

/-- The decimal digits of `n` before `acc`, with `fuel` digits at most. -/
def decDigitsAux : Nat → Nat → Line → Line
  | 0, _, acc => acc
  | fuel + 1, n, acc =>
    if n < 10 then digitByte n :: acc else decDigitsAux fuel (n / 10) (digitByte (n % 10) :: acc)

/-- The decimal digits of `n` without leading zeros (R65). -/
def decDigits (n : Nat) : Line := decDigitsAux (n + 1) n []

/-- A hexadecimal digit's byte, upper case (R68). -/
def hexByte (d : Nat) : Byte := if d < 10 then BitVec.ofNat 8 (0x30 + d) else BitVec.ofNat 8 (0x37 + d)

/-- The two hexadecimal digits of a checksum, high nibble first (R68). -/
def hexDigits (c : Byte) : Line := [hexByte (c.toNat / 16), hexByte (c.toNat % 16)]

/-- The last letter of a sentence id (R64). -/
def sidByte : Sid → Byte
  | .vdm => 0x4D#8
  | .vdo => 0x4F#8

/-- The bytes of the address field after the start byte (R64). -/
def addressTail (sid : Sid) (f : SentenceFields) : Line :=
  [f.talker1, f.talker2, 0x56#8, 0x44#8, sidByte sid]

/-- The bytes between the start byte and the `*`: the checksum region (R61, R62). -/
def sentenceRegion (sid : Sid) (f : SentenceFields) : Line :=
  addressTail sid f ++ [0x2C#8] ++ decDigits f.count ++ [0x2C#8] ++ decDigits f.number ++ [0x2C#8] ++
    (if f.seqEmpty then [] else decDigits f.seq) ++ [0x2C#8] ++ f.channel.toList ++ [0x2C#8] ++ f.payload ++ [0x2C#8] ++
    [digitByte f.fill.val]

/-- The sentence's line, without a terminator, with the checksum its region has (R61). -/
def sentenceLine (sid : Sid) (f : SentenceFields) : Line :=
  startByte f.start :: sentenceRegion sid f ++ [0x2A#8] ++ hexDigits (xorBytes (sentenceRegion sid f))

/-- The bits of a position report of type `t`, through bit 142 (R75). -/
def positionBits (t : Nat) (f : PositionFields) : Bits :=
  bitsOf (BitVec.ofNat 6 t) ++ bitsOf f.repeatInd ++ bitsOf f.mmsi ++ bitsOf f.navStatus ++ bitsOf f.rot ++ bitsOf f.sog ++
    bitsOf f.accuracy ++ bitsOf f.lon ++ bitsOf f.lat ++ bitsOf f.cog ++ bitsOf f.heading ++ bitsOf f.second

/-- The bits of a base-station report, through bit 137 (R76). -/
def baseStationBits (f : BaseStationFields) : Bits :=
  bitsOf (BitVec.ofNat 6 4) ++ bitsOf f.repeatInd ++ bitsOf f.mmsi ++ bitsOf f.year ++ bitsOf f.month ++ bitsOf f.day ++
    bitsOf f.hour ++ bitsOf f.minute ++ bitsOf f.second ++ bitsOf f.accuracy ++ bitsOf f.lon ++ bitsOf f.lat ++ bitsOf f.epfd

/-- The bits of a static and voyage message, through bit 421 (R77). -/
def staticBits (f : StaticFields) : Bits :=
  bitsOf (BitVec.ofNat 6 5) ++ bitsOf f.repeatInd ++ bitsOf f.mmsi ++ bitsOf f.aisVersion ++ bitsOf f.imo ++
    bitsOf f.callsign ++ bitsOf f.shipname ++ bitsOf f.shipType ++ bitsOf f.toBow ++ bitsOf f.toStern ++ bitsOf f.toPort ++
    bitsOf f.toStarboard ++ bitsOf f.epfd ++ bitsOf f.etaMonth ++ bitsOf f.etaDay ++ bitsOf f.etaHour ++ bitsOf f.etaMinute ++
    bitsOf f.draught ++ bitsOf f.destination

/-- A layout's bits followed by zeros up to the bitstream length; the engine ignores those bits (R194). -/
def padBits (bitlen : Nat) (bs : Bits) : Bits := bs ++ List.replicate (bitlen - bs.length) false

/-- An optional natural operand as presented. -/
def natOperand : Option Nat → Operand
  | none   => .absent
  | some n => .nat n

/-- An optional tick operand as presented. -/
def tickOperand : Option Tick → Operand
  | none   => .absent
  | some t => .tick t

/-- The encoding of an instruction, at its level (R85). -/
def encode : Instr → Encoding
  | .reset m t         => .operation { code := 0#8, operands := [natOperand m, tickOperand t] }
  | .feed line now     => .operation { code := 1#8, operands := [.line line, .tick now] }
  | .tick now          => .operation { code := 2#8, operands := [.tick now] }
  | .vdm c f           => .sentence c (sentenceLine .vdm f)
  | .vdo c f           => .sentence c (sentenceLine .vdo f)
  | .msg1 c bitlen f   => .message c (padBits bitlen (positionBits 1 f))
  | .msg2 c bitlen f   => .message c (padBits bitlen (positionBits 2 f))
  | .msg3 c bitlen f   => .message c (padBits bitlen (positionBits 3 f))
  | .msg4 c bitlen f   => .message c (padBits bitlen (baseStationBits f))
  | .msg5 c bitlen f   => .message c (padBits bitlen (staticBits f))

/-- A sentence's fields are those of its canonical text: its checksum is the one of that text, and the text is no longer than a
finite `P_MAX_LINE` (R9). Texts with leading zeros, lower-case hex digits or terminators are other encodings (log entry 12). -/
def canonicalSentence (b : Build) (sid : Sid) (f : SentenceFields) : Bool :=
  decide (f.checksum = xorBytes (sentenceRegion sid f)) && !tooLong b (sentenceLine sid f)

/-- The instruction is the one its encoding spells. -/
def Instr.canonical (b : Build) : Instr → Bool
  | .reset _ _  => true
  | .feed _ _   => true
  | .tick _     => true
  | .vdm _ f    => canonicalSentence b .vdm f
  | .vdo _ f    => canonicalSentence b .vdo f
  | .msg1 _ _ _ => true
  | .msg2 _ _ _ => true
  | .msg3 _ _ _ => true
  | .msg4 _ _ _ => true
  | .msg5 _ _ _ => true

/-! ### The armor encoder (R72, R186): used by the engine nowhere -/

/-- The armor character of a 6-bit value (R72). -/
def armorByte (v : BitVec 6) : Byte :=
  if v.toNat < 40 then BitVec.ofNat 8 (v.toNat + 0x30) else BitVec.ofNat 8 (v.toNat + 0x38)

/-- The fill-bit count of a bit sequence of length `m` (R186). -/
def fillFor (m : Nat) : Fin 6 := ⟨(6 - m % 6) % 6, Nat.mod_lt _ (by decide)⟩

/-- The armor characters of `n` groups of six bits, each most significant first. -/
def armorGroups : Nat → Bits → Line
  | 0, _ => []
  | n + 1, bs => armorByte (field bs 0 6) :: armorGroups n (bs.drop 6)

/-- The armored payload of a bit sequence: padded with zero bits to a multiple of 6 (R186). -/
def armorEncode (bs : Bits) : Line :=
  armorGroups ((bs.length + 5) / 6) (bs ++ List.replicate (fillFor bs.length).val false)

/-! ### Words of the opcode table (log entry 9) -/

/-- The bytes of a table word whose byte 0 is the most significant, as R85 reads the address field. -/
def byteAt (w k : Nat) : Byte := BitVec.ofNat 8 (w / 256 ^ k)

/-- A byte of the address field that the table word leaves zero is filled with `d`. -/
def orDefault (d c : Byte) : Byte := if c = 0#8 then d else c

/-- A sentence whose sentence id is the low 24 bits of the table word, and whose start byte and talker are the bits above them
(`!AI` where they are zero); every other field is the least one: count 1, number 1, an empty sequential id and channel, an empty
payload and fill 0. -/
def tableLine (w : Nat) : Line :=
  let region : Line :=
    [orDefault 0x41#8 (byteAt w 4), orDefault 0x49#8 (byteAt w 3), byteAt w 2, byteAt w 1, byteAt w 0] ++
      [0x2C#8, 0x31#8, 0x2C#8, 0x31#8, 0x2C#8, 0x2C#8, 0x2C#8, 0x2C#8, 0x30#8]
  orDefault 0x21#8 (byteAt w 5) :: region ++ [0x2A#8] ++ hexDigits (xorBytes region)

/-- The sentence that stands around a table message type: one fragment, `!AIVDM`, no sequential id, no channel, fill 0. -/
def tableSentence (payload : Line) : SentenceFields :=
  { start := .bang, talker1 := 0x41#8, talker2 := 0x49#8, count := 1, number := 1, seqEmpty := true, seq := 0
    channel := none, payload := payload, fill := 0, checksum := 0#8 }

/-- The bitstream of a table word: its type is the word's low 6 bits, its repeat indicator the 2 bits above them, and its other
bits are 0; it is as long as the longest layout rounded up to whole characters. -/
def tableBits (w : Nat) : Bits := padBits 426 (bitsOf (BitVec.ofNat 6 w) ++ bitsOf (BitVec.ofNat 2 (w / 64)))

/-- The fields of a sentence that go into a record (R138). -/
def metaOf (r : RawSentence) : Meta :=
  { start := r.fields.start, talker1 := r.fields.talker1, talker2 := r.fields.talker2, sid := r.sid
    channel := r.fields.channel, seqEmpty := r.fields.seqEmpty, seq := r.fields.seq, count := r.fields.count
    number := r.fields.number, fill := r.fields.fill, checksum := r.fields.checksum }

/-- A FEED of one line at tick 0, as presented. -/
def feedWord (line : Line) : OpWord := { code := 1#8, operands := [.line line, .tick 0#64] }

/-- The operands of zeros of an operation whose table row gives them no bits: for RESET they are not given, for FEED they are the
empty line and tick 0, for TICK it is tick 0. -/
def zeroOperands (code : Byte) : List Operand :=
  if code = 0#8 then [.absent, .absent]
  else if code = 1#8 then [.line [], .tick 0#64]
  else [.tick 0#64]

/-- The level of a table word and its encoding there: a word of more than 8 bits is an address field; a word of fewer than 8 bits
begins a message; a word of 8 bits is an op code if it is 0, 1 or 2, and begins a message otherwise. -/
def tableEncoding (nbits w : Nat) : Encoding :=
  if 8 < nbits then .sentence { lineNo := 0#64, raw := tableLine w, now := 0#64 } (tableLine w)
  else if nbits < 8 ∨ 3 ≤ w then
    let f := tableSentence (armorEncode (tableBits w))
    .message
      { lineNo := 0#64, fillUsed := 0
        info := metaOf { sid := .vdm, fields := { f with checksum := xorBytes (sentenceRegion .vdm f) } } }
      (tableBits w)
  else .operation { code := BitVec.ofNat 8 w, operands := zeroOperands (BitVec.ofNat 8 w) }

/-- The operation the host presents so that the instruction of a table word runs: the operation itself, or a FEED of the
sentence, or a FEED of the sentence that carries the message. -/
def tableOperation (nbits w : Nat) : OpWord :=
  match tableEncoding nbits w with
  | .operation word => word
  | .sentence _ line => feedWord line
  | .message _ bits => feedWord (sentenceLine .vdm (tableSentence (armorEncode bits)))

/-- The instruction the decoder reads from a word of spec/opcode_table.json. -/
def decodeTableWord (nbits w : Nat) : Option Instr :=
  match decode Build.reference (tableEncoding nbits w) with
  | .ok i => some i
  | .error _ => none

end Sys2Proof
end

