-- ==== Sys2Proof/Machine/State.lean ====
section
/-! DEFINITION. The engine's state (spec 10_state.md R20 to R31), the records it returns (40_operations.md R101, 44_field_extractor.md
R196), and the reasons a step can stop. -/

namespace Sys2Proof.Machine

/-! ### The group table (R21, R22) -/

/-- A group key: the channel field and the sequential message id (R22). -/
structure Key where
  channel : Option Byte
  seq     : Nat
  deriving DecidableEq, Repr

/-- A filled slot: the fragment's payload, unvalidated, and its fill-bit count (R21). -/
structure Slot where
  payload : Line
  fill    : Fin 6
  deriving DecidableEq, Repr

/-- A group: the fragment count, one slot per fragment number (slot 1 first), and the time of the last write (R21). -/
structure Group where
  count        : Nat
  slots        : List (Option Slot)
  lastActivity : Tick
  deriving DecidableEq, Repr

/-- The group table `G`: a finite map, held as a list in strictly rising key order (log entry 11). -/
abbrev Table := List (Key × Group)

/-! ### Decoded messages (R196) -/

/-- The class of a speed, longitude, latitude, course or heading (R205 to R209). -/
inductive Availability where
  | available
  | unavailable
  | outOfRange
  deriving DecidableEq, Repr

/-- The class of a turn rate (R210). -/
inductive RotClass where
  | available
  | unavailable
  | fastRight
  | fastLeft
  deriving DecidableEq, Repr

/-- The class of a timestamp second (R211). -/
inductive SecondClass where
  | available
  | unavailable
  | manual
  | deadReckoning
  | inoperative
  deriving DecidableEq, Repr

/-- A position report, types 1 to 3 (R196, R200). -/
structure PositionReport where
  type         : Nat
  repeatInd    : Nat
  mmsi         : Nat
  navStatus    : Nat
  rot          : Int
  rotClass     : RotClass
  sog          : Nat
  sogClass     : Availability
  accuracy     : Bool
  lon          : Int
  lonClass     : Availability
  lat          : Int
  latClass     : Availability
  cog          : Nat
  cogClass     : Availability
  heading      : Nat
  headingClass : Availability
  second       : Nat
  secondClass  : SecondClass
  deriving DecidableEq, Repr

/-- A base-station report, type 4 (R196, R214). -/
structure BaseStationReport where
  type        : Nat
  repeatInd   : Nat
  mmsi        : Nat
  year        : Nat
  month       : Nat
  day         : Nat
  hour        : Nat
  minute      : Nat
  second      : Nat
  secondClass : SecondClass
  accuracy    : Bool
  lon         : Int
  lonClass    : Availability
  lat         : Int
  latClass    : Availability
  epfd        : Nat
  deriving DecidableEq, Repr

/-- Static and voyage data, type 5 (R196, R220). -/
structure StaticVoyage where
  type        : Nat
  repeatInd   : Nat
  mmsi        : Nat
  aisVersion  : Nat
  imo         : Nat
  callsign    : Line
  shipname    : Line
  shipType    : Nat
  toBow       : Nat
  toStern     : Nat
  toPort      : Nat
  toStarboard : Nat
  epfd        : Nat
  etaMonth    : Nat
  etaDay      : Nat
  etaHour     : Nat
  etaMinute   : Nat
  draught     : Nat
  destination : Line
  deriving DecidableEq, Repr

/-- A decoded message: a tagged variant with one variant per layout (R196). -/
inductive DecodedMessage where
  | position    (m : PositionReport)
  | baseStation (m : BaseStationReport)
  | staticData  (m : StaticVoyage)
  deriving DecidableEq, Repr

/-! ### Records (R101) -/

/-- Why a group was evicted (R163). -/
inductive EvictReason where
  | idle
  | capacity
  deriving DecidableEq, Repr

/-- The per-code content of an Error record (R242, R243, R245, R246, R247). -/
inductive Info where
  | empty
  | checksum (computed supplied : Byte)
  | armor (index : Nat) (byte : Byte)
  | truncated (type : Option Nat) (got need : Nat)
  | unsupported (type : Nat)
  deriving DecidableEq, Repr

/-- One element of an operation's output list (R101). A set of fragment numbers is written in ascending order. -/
inductive Record where
  | decoded  (lineNo : Tick) (info : Meta) (fillUsed : Fin 6) (bitlen : Nat) (msg : DecodedMessage)
  | buffered (lineNo : Tick) (key : Key) (count : Nat) (filled : List Nat)
  | error    (lineNo : Tick) (code sub : Nat) (info : Info) (raw : Line)
  | evicted  (code : Nat) (reason : EvictReason) (key : Key) (count : Nat) (filled : List Nat) (lastActivity : Tick)
  deriving DecidableEq, Repr

/-! ### The state -/

/-- The engine's four items of state (R20), and three fields of the model's own: the build parameters (log entry 5), the
operations the host has yet to present (log entry 3), and the output list of the last operation (log entry 4). -/
structure State where
  groups       : Table
  feedCount    : Tick
  cfgMaxGroups : Nat
  cfgIdleTicks : Tick
  build        : Build
  inbox        : List OpWord
  out          : List Record
  deriving DecidableEq, Repr

/-- The state right after RESET with the default operands on a reference build (R31, R270), nothing presented yet. -/
def State.reset : State where
  groups       := []
  feedCount    := 0#64
  cfgMaxGroups := defaultMaxGroups
  cfgIdleTicks := defaultIdleTicks
  build        := Build.reference
  inbox        := []
  out          := []

/-- The faults. No step of a running engine faults: every failure of a line is a record (R251). -/
inductive Fault where
  /-- Raised by `Boot.present` alone: a FEED or TICK before the first RESET, for which the engine has no transition (R275). Safe:
  the model stops where the spec gives no behaviour. -/
  | beforeReset
  deriving DecidableEq, Repr

/-- The refusals. -/
inductive Refusal where
  /-- Raised by `exec` alone, in the arm of an instruction without a meaning; no arm has one left. Safe. -/
  | notModelled (mnemonic : String)
  /-- Raised by `step` and `Boot.present`: the presented word is no operation, for its op code is 3 or more or an operand has the
  wrong type (R109). Safe: the spec refuses it at the port, with the state unchanged. -/
  | notAnOperation (why : DecodeError)
  /-- Raised by `Fleet.stepAt` alone: there is no engine of that number. Safe: the model's own, for an index no host can mean. -/
  | noSuchEngine (index : Nat)
  deriving DecidableEq, Repr

end Sys2Proof.Machine
end

