-- ==== Sys2Proof/Machine/Ops.lean ====
section
/-! DEFINITION. The shared operations over the state: the group table (spec 00_scope.md R13, 10_state.md R22), records and error entry
(40_operations.md R101, 60_exceptions.md R241, R251), eviction (42_fragment_reassembler.md R160 to R163), and the operation port
(40_operations.md R100). -/

namespace Sys2Proof.Machine

/-! ### Keys and the table -/

/-- The channel part of key order: no channel comes first, then by byte value (R22). -/
def channelBefore : Option Byte → Option Byte → Bool
  | none, none      => false
  | none, some _    => true
  | some _, none    => false
  | some a, some b  => decide (a.toNat < b.toNat)

/-- Key order: by channel, then by sequential id (R22). -/
def keyBefore (k l : Key) : Bool :=
  channelBefore k.channel l.channel || (decide (k.channel = l.channel) && decide (k.seq < l.seq))

/-- The table's canonical form: keys strictly rising, so that each key has one entry and equal maps are equal lists. -/
def tableWf : Table → Bool
  | [] => true
  | e :: es => es.all (fun e' => keyBefore e.1 e'.1) && tableWf es

/-- `G.lookup(k)` (R13). -/
def lookup (k : Key) : Table → Option Group
  | [] => none
  | (k', g) :: es => if k' = k then some g else lookup k es

/-- `G.remove(k)` (R13). -/
def remove (k : Key) (t : Table) : Table := t.filter (fun e => decide (e.1 ≠ k))

/-- `G.insert(k, g)`: adds or replaces the group with key `k` (R13). -/
def insert (k : Key) (g : Group) : Table → Table
  | [] => [(k, g)]
  | (k', g') :: es =>
    if k' = k then (k, g) :: es
    else if keyBefore k k' then (k, g) :: (k', g') :: es
    else (k', g') :: insert k g es

/-! ### Slots -/

/-- Slot `j` of a group, for a fragment number `j >= 1` (R21). -/
def slotAt (g : Group) (j : Nat) : Option Slot :=
  match j with
  | 0 => none
  | i + 1 => (g.slots[i]?).join

/-- The fragment numbers of the filled slots, the first slot being number `i`. -/
def filledFrom : Nat → List (Option Slot) → List Nat
  | _, [] => []
  | i, none :: ss => filledFrom (i + 1) ss
  | i, some _ :: ss => i :: filledFrom (i + 1) ss

/-- The set of fragment numbers a group has filled, ascending (R163, R165). -/
def filledNumbers (g : Group) : List Nat := filledFrom 1 g.slots

/-- Every slot is filled (R157). -/
def allFilled (g : Group) : Bool := g.slots.all Option.isSome

/-! ### Records -/

/-- `emit r` (R13). -/
def emit (r : Record) (s : State) : State := { s with out := s.out ++ [r] }

/-- The numeric code of an error kind (R240). -/
def errorCode : ErrorKind → Nat
  | .malformed _          => 1
  | .checksumMismatch _ _ => 2
  | .invalidArmor _ _     => 4
  | .truncated _ _ _      => 5
  | .unsupportedType _    => 6

/-- The number of a Malformed sub-code (R242). -/
def subCode : Malformed → Nat
  | .lineTooLong        => 1
  | .noStart            => 2
  | .noStar             => 3
  | .badChecksumField   => 4
  | .fieldCount         => 5
  | .badAddress         => 6
  | .badCount           => 7
  | .badNumber          => 8
  | .numberExceedsCount => 9
  | .badSeqId           => 10
  | .badChannel         => 11
  | .badFill            => 12

/-- The `sub` of an Error record: the Malformed sub-code for code 1, and 0 for every other code (R241). -/
def errorSub : ErrorKind → Nat
  | .malformed why        => subCode why
  | .checksumMismatch _ _ => 0
  | .invalidArmor _ _     => 0
  | .truncated _ _ _      => 0
  | .unsupportedType _    => 0

/-- The `info` of an Error record (R242 to R247). -/
def errorInfo : ErrorKind → Info
  | .malformed _          => .empty
  | .checksumMismatch c s => .checksum c s
  | .invalidArmor i byte  => .armor i byte
  | .truncated t got need => .truncated t got need
  | .unsupportedType t    => .unsupported t

/-- The Error record of a failure (R241). -/
def errorRecord (lineNo : Tick) (e : ErrorKind) (raw : Line) : Record :=
  .error lineNo (errorCode e) (errorSub e) (errorInfo e) raw

/-- Error entry: the Error record is emitted and nothing else changes; there is no handler, no saved state and no mode, and so no
return either (R251, R252). -/
def raiseError (lineNo : Tick) (e : ErrorKind) (raw : Line) (s : State) : State := emit (errorRecord lineNo e raw) s

/-! ### Eviction -/

/-- The idle age of a group, saturating at 0 (R160). -/
def idleAge (now : Tick) (g : Group) : Nat :=
  if g.lastActivity.toNat ≤ now.toNat then now.toNat - g.lastActivity.toNat else 0

/-- The group's idle age is strictly greater than the threshold (R160). -/
def isIdle (threshold now : Tick) (g : Group) : Bool := decide (threshold.toNat < idleAge now g)

/-- Eviction order: by `last_activity`, then key order (R161). Of two entries in this order the second does not come strictly first. -/
def evictLe (e f : Key × Group) : Bool :=
  decide (e.2.lastActivity.toNat < f.2.lastActivity.toNat) ||
    (decide (e.2.lastActivity.toNat = f.2.lastActivity.toNat) && !keyBefore f.1 e.1)

/-- Entries in eviction order (R161, R162). -/
def evictSort (t : Table) : Table := t.insertionSort (fun e f => evictLe e f = true)

/-- The Evicted record of an entry: code 3, with no line number and no payload (R163, R244). -/
def evictedRecord (why : EvictReason) (e : Key × Group) : Record :=
  .evicted 3 why e.1 e.2.count (filledNumbers e.2) e.2.lastActivity

/-- `EvictIdle(now)` (R160, R161). -/
def evictIdle (now : Tick) (s : State) : State :=
  { s with
    groups := s.groups.filter (fun e => !isIdle s.cfgIdleTicks now e.2)
    out := s.out ++ (evictSort (s.groups.filter (fun e => isIdle s.cfgIdleTicks now e.2))).map (evictedRecord .idle) }

/-- `EvictForCapacity()`: the first entry in eviction order is removed (R162). -/
def evictForCapacity (s : State) : State :=
  match evictSort s.groups with
  | [] => s
  | e :: _ => emit (evictedRecord .capacity e) { s with groups := remove e.1 s.groups }

/-! ### The port (R100) -/

/-- The next presented operation, and the state in which it has been taken from the port. -/
def fetch (s : State) : Option (OpWord × State) :=
  match s.inbox with
  | [] => none
  | w :: ws => some (w, { s with inbox := ws })

/-- An operation begins with an empty output list (R104, R108). -/
def beginOutput (s : State) : State := { s with out := [] }

/-- FEED reads its line number and increments the counter, modulo 2^64 (R23, R104). -/
def countLine (s : State) : State := { s with feedCount := s.feedCount + 1#64 }

end Sys2Proof.Machine
end

