-- ==== Sys2Proof/Machine/Operands.lean ====
section
/-! DEFINITION. What the operands of an instruction stand for: RESET's defaults (spec 10_state.md R24, R25), a sentence's key
(42_fragment_reassembler.md R152), a text field's characters (44_field_extractor.md R221, 30_encoding.md R78). -/

namespace Sys2Proof.Machine

/-- RESET's `max_groups`, 16 where the host gives none (R24). -/
def maxGroupsOperand (m : Option Nat) : Nat := m.getD defaultMaxGroups

/-- RESET's `idle_ticks`, 5000 where the host gives none (R25). -/
def idleTicksOperand (t : Option Tick) : Tick := t.getD defaultIdleTicks

/-- The group key of a sentence (R152). -/
def keyOf (f : SentenceFields) : Key := { channel := f.channel, seq := f.seq }

/-- The slot a fragment fills (R156). -/
def slotOf (f : SentenceFields) : Slot := { payload := f.payload, fill := f.fill }

/-- Character `i` of a text field of `m` characters: a 6-bit value, character 0 in the highest bits (R78, R221). -/
def textValue (m : Nat) (v : BitVec (6 * m)) (i : Nat) : Nat := v.toNat / 64 ^ (m - 1 - i) % 64

/-- The byte of a 6-bit text value (R78). -/
def textByte (v : Nat) : Byte := if v < 32 then BitVec.ofNat 8 (v + 0x40) else BitVec.ofNat 8 v

/-- Text padding: `@` or space (R221). -/
def isPadding (c : Byte) : Bool := c == 0x40#8 || c == 0x20#8

/-- The bytes of a text field before trimming (R78). -/
def textChars (m : Nat) (v : BitVec (6 * m)) : Line := (List.range m).map (fun i => textByte (textValue m v i))

/-- `Text(a, m)`: the characters without their trailing padding (R221). -/
def text (m : Nat) (v : BitVec (6 * m)) : Line := (textChars m v).rdropWhile isPadding

end Sys2Proof.Machine
end

