-- ==== Sys2Proof/Machine/Flags.lean ====
section
/-! DEFINITION. The availability classes, the only flag-like values of the engine: they are computed afresh for each message and are not
state (spec 10_state.md R28; 44_field_extractor.md R205 to R211). -/

namespace Sys2Proof.Machine

/-- `SogClass` (R205). -/
def sogClass (sog : Nat) : Availability := if sog = 1023 then .unavailable else .available

/-- `LonClass` (R206). -/
def lonClass (lon : Int) : Availability :=
  if lon = 108600000 then .unavailable
  else if 108000000 < lon.natAbs then .outOfRange
  else .available

/-- `LatClass` (R207). -/
def latClass (lat : Int) : Availability :=
  if lat = 54600000 then .unavailable
  else if 54000000 < lat.natAbs then .outOfRange
  else .available

/-- `CogClass` (R208). -/
def cogClass (cog : Nat) : Availability :=
  if cog = 3600 then .unavailable
  else if 3600 < cog then .outOfRange
  else .available

/-- `HeadingClass` (R209). -/
def headingClass (heading : Nat) : Availability :=
  if heading = 511 then .unavailable
  else if 360 ≤ heading ∧ heading ≤ 510 then .outOfRange
  else .available

/-- `RotClass` (R210). -/
def rotClass (rot : Int) : RotClass :=
  if rot = -128 then .unavailable
  else if rot = 127 then .fastRight
  else if rot = -127 then .fastLeft
  else .available

/-- `SecondClass` (R211). -/
def secondClass (second : Nat) : SecondClass :=
  if second ≤ 59 then .available
  else if second = 60 then .unavailable
  else if second = 61 then .manual
  else if second = 62 then .deadReckoning
  else .inoperative

/-- A one-bit boolean field (R79, R202). -/
def flagBit (v : BitVec 1) : Bool := decide (v = 1#1)

end Sys2Proof.Machine
end

