-- ==== Sys2Proof/Machine/Messages.lean ====
section
/-! DEFINITION. The meanings of MSG1 to MSG5: the extraction stage of a FEED, which emits one Decoded record (spec 44_field_extractor.md
R190 to R224), and the decode of a complete payload (40_operations.md R110). -/

namespace Sys2Proof.Machine

/-- The record of a position report of type `t` (R200). -/
def positionReport (t : Nat) (f : PositionFields) : PositionReport where
  type         := t
  repeatInd    := f.repeatInd.toNat
  mmsi         := f.mmsi.toNat
  navStatus    := f.navStatus.toNat
  rot          := f.rot.toInt
  rotClass     := rotClass f.rot.toInt
  sog          := f.sog.toNat
  sogClass     := sogClass f.sog.toNat
  accuracy     := flagBit f.accuracy
  lon          := f.lon.toInt
  lonClass     := lonClass f.lon.toInt
  lat          := f.lat.toInt
  latClass     := latClass f.lat.toInt
  cog          := f.cog.toNat
  cogClass     := cogClass f.cog.toNat
  heading      := f.heading.toNat
  headingClass := headingClass f.heading.toNat
  second       := f.second.toNat
  secondClass  := secondClass f.second.toNat

/-- The record of a base-station report (R214, R215). -/
def baseStationReport (f : BaseStationFields) : BaseStationReport where
  type        := 4
  repeatInd   := f.repeatInd.toNat
  mmsi        := f.mmsi.toNat
  year        := f.year.toNat
  month       := f.month.toNat
  day         := f.day.toNat
  hour        := f.hour.toNat
  minute      := f.minute.toNat
  second      := f.second.toNat
  secondClass := secondClass f.second.toNat
  accuracy    := flagBit f.accuracy
  lon         := f.lon.toInt
  lonClass    := lonClass f.lon.toInt
  lat         := f.lat.toInt
  latClass    := latClass f.lat.toInt
  epfd        := f.epfd.toNat

/-- The record of static and voyage data (R220, R222). -/
def staticVoyage (f : StaticFields) : StaticVoyage where
  type        := 5
  repeatInd   := f.repeatInd.toNat
  mmsi        := f.mmsi.toNat
  aisVersion  := f.aisVersion.toNat
  imo         := f.imo.toNat
  callsign    := text 7 f.callsign
  shipname    := text 20 f.shipname
  shipType    := f.shipType.toNat
  toBow       := f.toBow.toNat
  toStern     := f.toStern.toNat
  toPort      := f.toPort.toNat
  toStarboard := f.toStarboard.toNat
  epfd        := f.epfd.toNat
  etaMonth    := f.etaMonth.toNat
  etaDay      := f.etaDay.toNat
  etaHour     := f.etaHour.toNat
  etaMinute   := f.etaMinute.toNat
  draught     := f.draught.toNat
  destination := text 20 f.destination

/-- The Decoded record of a message is emitted; nothing else changes (R104). -/
def emitDecoded (c : MessageContext) (bitlen : Nat) (m : DecodedMessage) (s : State) : Host.Outcome State Fault Refusal :=
  .next (emit (.decoded c.lineNo c.info c.fillUsed bitlen m) s)

/-- MSG1 (R200, R203). -/
def execMsg1 (c : MessageContext) (bitlen : Nat) (f : PositionFields) (s : State) : Host.Outcome State Fault Refusal :=
  emitDecoded c bitlen (.position (positionReport 1 f)) s

/-- MSG2 (R200, R203). -/
def execMsg2 (c : MessageContext) (bitlen : Nat) (f : PositionFields) (s : State) : Host.Outcome State Fault Refusal :=
  emitDecoded c bitlen (.position (positionReport 2 f)) s

/-- MSG3 (R200, R203). -/
def execMsg3 (c : MessageContext) (bitlen : Nat) (f : PositionFields) (s : State) : Host.Outcome State Fault Refusal :=
  emitDecoded c bitlen (.position (positionReport 3 f)) s

/-- MSG4 (R214). -/
def execMsg4 (c : MessageContext) (bitlen : Nat) (f : BaseStationFields) (s : State) : Host.Outcome State Fault Refusal :=
  emitDecoded c bitlen (.baseStation (baseStationReport f)) s

/-- MSG5 (R220). -/
def execMsg5 (c : MessageContext) (bitlen : Nat) (f : StaticFields) (s : State) : Host.Outcome State Fault Refusal :=
  emitDecoded c bitlen (.staticData (staticVoyage f)) s

/-- The message instruction that a bitstream spells is run (R190). -/
def runMessage (c : MessageContext) (bitlen : Nat) (m : Message) (s : State) : Host.Outcome State Fault Refusal :=
  match m with
  | .msg1 f => execMsg1 c bitlen f s
  | .msg2 f => execMsg2 c bitlen f s
  | .msg3 f => execMsg3 c bitlen f s
  | .msg4 f => execMsg4 c bitlen f s
  | .msg5 f => execMsg5 c bitlen f s

/-- The decode of a complete payload and the record it ends in: a Decoded record, or the Error record of the armor decoder or the
extractor (R104, R110). -/
def decodePayload (c : FeedContext) (info : Meta) (payload : Line) (fill : Fin 6) (s : State) :
    Host.Outcome State Fault Refusal :=
  match armorDecode payload fill with
  | .error e => .next (raiseError c.lineNo e c.raw s)
  | .ok bits =>
    match decodeMessage bits with
    | .error e => .next (raiseError c.lineNo e c.raw s)
    | .ok m => runMessage { lineNo := c.lineNo, info := info, fillUsed := fill } bits.length m s

end Sys2Proof.Machine
end

