-- ==== Sys2Proof/Machine/Sentences.lean ====
section
/-! DEFINITION. The meanings of VDM and VDO: the sentence-level stage of a FEED, which is the bypass of a single fragment (spec
42_fragment_reassembler.md R150) or the reassembly of a fragment (R151 to R159, R162, R165), and then the decode of a complete payload
(40_operations.md R104). -/

namespace Sys2Proof.Machine

/-- What Reassemble returns: the message is still pending, or it is complete (R151). -/
inductive Reassembly where
  | pending  (key : Key) (filled : List Nat)
  | complete (payload : Line) (fill : Fin 6)
  deriving DecidableEq, Repr

/-- A fragment supersedes the group with its key: the count differs (R154), or it is a second fragment 1 (R153). -/
def supersedes (f : SentenceFields) (g : Group) : Bool :=
  decide (g.count ≠ f.count) || (decide (f.number = 1) && (slotAt g 1).isSome)

/-- The group with the fragment's key is removed, without a record, if the fragment supersedes it (R153, R154). -/
def dropSuperseded (f : SentenceFields) (s : State) : State :=
  match lookup (keyOf f) s.groups with
  | none => s
  | some g => if supersedes f g then { s with groups := remove (keyOf f) s.groups } else s

/-- A new group: every slot empty (R155). -/
def newGroup (f : SentenceFields) (now : Tick) : Group :=
  { count := f.count, slots := List.replicate f.count none, lastActivity := now }

/-- Room for one group more: if the table is full, one group is evicted (R155, R162). -/
def makeRoom (s : State) : State := if s.cfgMaxGroups ≤ s.groups.length then evictForCapacity s else s

/-- The group the fragment goes into, and the state it is found or made in (R155). -/
def openGroup (f : SentenceFields) (now : Tick) (s : State) : Group × State :=
  match lookup (keyOf f) s.groups with
  | some g => (g, s)
  | none => (newGroup f now, makeRoom s)

/-- The fragment's slot is written, over whatever it held, and the group's time is `now` (R156). -/
def writeSlot (f : SentenceFields) (now : Tick) (g : Group) : Group :=
  { g with slots := g.slots.set (f.number - 1) (some (slotOf f)), lastActivity := now }

/-- The payloads of the slots in fragment-number order (R157). -/
def combinedPayload (g : Group) : Line := g.slots.flatMap (fun s => (s.map Slot.payload).getD [])

/-- The fill-bit count of the fragment whose number is the count (R157). -/
def lastFill (g : Group) : Fin 6 := ((slotAt g g.count).map Slot.fill).getD 0

/-- The written group is kept while a slot is empty, and removed when it is complete (R151, R157). -/
def closeGroup (key : Key) (g : Group) (s : State) : State × Reassembly :=
  if allFilled g then ({ s with groups := remove key s.groups }, .complete (combinedPayload g) (lastFill g))
  else ({ s with groups := insert key g s.groups }, .pending key (filledNumbers g))

/-- `Reassemble(s, now)` (R151). -/
def reassemble (f : SentenceFields) (now : Tick) (s : State) : State × Reassembly :=
  let opened := openGroup f now (dropSuperseded f s)
  closeGroup (keyOf f) (writeSlot f now opened.1) opened.2

/-- The sentence-level stage: a single fragment goes straight to the decode (R150); another is reassembled, and ends in a Buffered
record or in the decode of the completed message (R104). -/
def runSentence (c : FeedContext) (r : RawSentence) (s : State) : Host.Outcome State Fault Refusal :=
  if r.fields.count = 1 then decodePayload c (metaOf r) r.fields.payload r.fields.fill s
  else
    match reassemble r.fields c.now s with
    | (s', .pending key filled) => .next (emit (.buffered c.lineNo key r.fields.count filled) s')
    | (s', .complete payload fill) => decodePayload c (metaOf r) payload fill s'

/-- VDM: a received report (R130, R140). -/
def execVdm (c : FeedContext) (f : SentenceFields) (s : State) : Host.Outcome State Fault Refusal :=
  runSentence c { sid := .vdm, fields := f } s

/-- VDO: an own-ship report, treated as VDM is (R130, R140). -/
def execVdo (c : FeedContext) (f : SentenceFields) (s : State) : Host.Outcome State Fault Refusal :=
  runSentence c { sid := .vdo, fields := f } s

end Sys2Proof.Machine
end

