-- ==== Sys2Proof/Machine/Operations.lean ====
section
/-! DEFINITION. The meanings of the host operations RESET, FEED and TICK (spec 40_operations.md R102 to R108). -/

namespace Sys2Proof.Machine

/-- RESET: with `max_groups` 0 it is refused, which changes no item of the engine's state and emits nothing (R102, R274); else all
four items are set, and pending groups are discarded without a record (R102, R272). -/
def execReset (maxGroups : Option Nat) (idleTicks : Option Tick) (s : State) : Host.Outcome State Fault Refusal :=
  if maxGroupsOperand maxGroups < 1 then .next (beginOutput s)
  else
    .next
      { beginOutput s with
        groups := []
        feedCount := 0#64
        cfgMaxGroups := maxGroupsOperand maxGroups
        cfgIdleTicks := idleTicksOperand idleTicks }

/-- What every FEED does before its line is parsed: it takes a line number and evicts idle groups (R104). -/
def beginFeed (now : Tick) (s : State) : State := evictIdle now (countLine (beginOutput s))

/-- What a FEED passes on to its stages: the line number is the counter before the increment (R23, R104). -/
def feedContext (line : Line) (now : Tick) (s : State) : FeedContext := { lineNo := s.feedCount, raw := line, now := now }

/-- FEED: after idle eviction the line is parsed, and its sentence instruction is run, or its error is raised (R104). -/
def execFeed (line : Line) (now : Tick) (s : State) : Host.Outcome State Fault Refusal :=
  match parse s.build line with
  | .error e => .next (raiseError s.feedCount e line (beginFeed now s))
  | .ok r =>
    match r.sid with
    | .vdm => execVdm (feedContext line now s) r.fields (beginFeed now s)
    | .vdo => execVdo (feedContext line now s) r.fields (beginFeed now s)

/-- TICK: idle eviction and nothing else (R108). -/
def execTick (now : Tick) (s : State) : Host.Outcome State Fault Refusal := .next (evictIdle now (beginOutput s))

end Sys2Proof.Machine
end

