-- ==== Sys2Proof/Machine/Dispatch.lean ====
section
/-! DEFINITION. The dispatch: one arm per constructor of Instr. -/

namespace Sys2Proof.Machine

def exec (i : Instr) (s : State) : Host.Outcome State Fault Refusal :=
  match i with
  | .reset maxGroups idleTicks => Sys2Proof.Machine.execReset maxGroups idleTicks s
  | .feed line now => Sys2Proof.Machine.execFeed line now s
  | .tick now => Sys2Proof.Machine.execTick now s
  | .vdm c f => Sys2Proof.Machine.execVdm c f s
  | .vdo c f => Sys2Proof.Machine.execVdo c f s
  | .msg1 c bitlen f => Sys2Proof.Machine.execMsg1 c bitlen f s
  | .msg2 c bitlen f => Sys2Proof.Machine.execMsg2 c bitlen f s
  | .msg3 c bitlen f => Sys2Proof.Machine.execMsg3 c bitlen f s
  | .msg4 c bitlen f => Sys2Proof.Machine.execMsg4 c bitlen f s
  | .msg5 c bitlen f => Sys2Proof.Machine.execMsg5 c bitlen f s

end Sys2Proof.Machine
end

