-- ==== Sys2Proof/Machine/Step.lean ====
section
/-! DEFINITION. One step: one presented operation, performed whole (spec 00_scope.md R6, 20_memory.md R46, 40_operations.md R100). -/

namespace Sys2Proof.Machine

/-- The next presented operation is taken from the port, decoded and performed. With none presented the engine stays idle and keeps
all of its state (R250, R261). A word that is no operation is refused at the port (R109). -/
def step (s : State) : Host.Outcome State Fault Refusal :=
  match fetch s with
  | none => .next s
  | some (word, s') =>
    match decodeOp word with
    | .error e => .refused (.notAnOperation e)
    | .ok i => exec i s'

/-- The state in which the operation that runs the instruction of this table word is the next one presented (log entries 9, 10). -/
def State.withFetchWord (s : State) (nbits w : Nat) : State := { s with inbox := tableOperation nbits w :: s.inbox }

end Sys2Proof.Machine
end

