-- ==== Sys2Proof/Machine/Boot.lean ====
section
/-! DEFINITION. The engine before its first RESET (spec 10_state.md R31; 70_reset_and_hazards.md R270, R274, R275). -/

namespace Sys2Proof.Machine

/-- An engine: built with its parameters and without state until a RESET, or running. -/
inductive Engine where
  | unbooted (build : Build)
  | running (s : State)
  deriving DecidableEq, Repr

/-- The blank a first RESET writes over; nothing of it but the build parameters survives the RESET (R270). -/
def blankState (b : Build) : State := { State.reset with build := b }

/-- The host presents one operation. Before the first RESET there is no state: a valid RESET makes it (R270), a RESET with
`max_groups` 0 changes nothing (R274), and FEED and TICK have no transition (R275). -/
def Boot.present (w : OpWord) : Engine → Host.Outcome Engine Fault Refusal
  | .running s =>
    match step { s with inbox := [w] } with
    | .next s' => .next (.running s')
    | .fault r => .fault r
    | .refused r => .refused r
  | .unbooted b =>
    match decodeOp w with
    | .error e => .refused (.notAnOperation e)
    | .ok (.reset m t) =>
      if maxGroupsOperand m < 1 then .next (.unbooted b)
      else
        match exec (.reset m t) (blankState b) with
        | .next s' => .next (.running s')
        | .fault r => .fault r
        | .refused r => .refused r
    | .ok _ => .fault .beforeReset

end Sys2Proof.Machine
end

