-- ==== Sys2Proof/Machine/Fleet.lean ====
section
/-! DEFINITION. Several engines: a product of independent engines that share no state (spec 60_exceptions.md R259, R262; 20_memory.md R54). -/

namespace Sys2Proof.Machine

/-- One step of the engine of number `i` among several; the host says which (R259). -/
def Fleet.stepAt (i : Nat) (engines : List State) : Host.Outcome (List State) Fault Refusal :=
  match engines[i]? with
  | none => .refused (.noSuchEngine i)
  | some s =>
    match step s with
    | .next s' => .next (engines.set i s')
    | .fault r => .fault r
    | .refused r => .refused r

end Sys2Proof.Machine
end

