-- ==== Sys2Proof/Machine/Scale.lean ====
section
/-! DEFINITION. The scaled meanings of raw field values, as exact rationals (spec 30_encoding.md R80; 44_field_extractor.md R195). The engine
outputs the raw integer and never computes these; a reader of a record does. -/

namespace Sys2Proof.Machine

/-- Speed over ground in knots (R80, R205). -/
def knots (sog : Nat) : Rat := (sog : Rat) / 10

/-- Longitude or latitude in degrees (R80, R206, R207). -/
def degrees (raw : Int) : Rat := (raw : Rat) / 600000

/-- Course over ground in degrees (R80, R208). -/
def courseDegrees (cog : Nat) : Rat := (cog : Rat) / 10

/-- True heading in degrees (R80, R209). -/
def headingDegrees (heading : Nat) : Rat := (heading : Rat)

/-- Draught in metres (R80). -/
def draughtMetres (draught : Nat) : Rat := (draught : Rat) / 10

/-- A type 5 dimension in metres (R77). -/
def dimensionMetres (d : Nat) : Rat := (d : Rat)

end Sys2Proof.Machine
end

