-- ==== Sys2Proof/Safety.lean ====
section
/-! DEFINITION. What a safe state is: the invariants of spec 10_state.md R29 and 20_memory.md R50, and the host's duty of a non-decreasing
`now` (70_reset_and_hazards.md R282). -/

namespace Sys2Proof.Machine

/-- A group as R29 has it: as many slots as its count, which is in 2..P_MAX_FRAGMENTS, at least one filled and at least one empty. -/
def groupInv (b : Build) (g : Group) : Bool :=
  decide (2 ≤ g.count ∧ g.count ≤ b.maxFragments) && decide (g.slots.length = g.count) &&
    g.slots.any Option.isSome && g.slots.any Option.isNone

/-- An entry as R29 has it: the group, and its key's `seq` in 0..P_SEQ_ID_MAX. -/
def entryInv (b : Build) (e : Key × Group) : Bool := groupInv b e.2 && decide (e.1.seq ≤ b.seqIdMax)

/-- The invariant of R29, with the table's canonical form and the legality of CFG_MAX_GROUPS (R24). That a stored fill is in 0..5 is
its type. -/
def StateInv (s : State) : Prop :=
  tableWf s.groups = true ∧ s.groups.length ≤ s.cfgMaxGroups ∧ 1 ≤ s.cfgMaxGroups ∧
    ∀ e ∈ s.groups, entryInv s.build e = true

/-- The bound of R50 on a stored payload: with a finite P_MAX_LINE, no slot holds more bytes than a line may have. -/
def slotsBounded (s : State) : Prop :=
  ∀ n, s.build.maxLine = some n →
    ∀ e ∈ s.groups, ∀ slot ∈ e.2.slots, ∀ x, slot = some x → x.payload.length ≤ n

/-- The payload bytes a table holds. -/
def storedBytes (t : Table) : Nat := (t.map (fun e => (combinedPayload e.2).length)).sum

/-- The `now` of a presented operation that has one. -/
def nowOf (w : OpWord) : Option Tick :=
  match decodeOp w with
  | .ok (.feed _ now) => some now
  | .ok (.tick now) => some now
  | _ => none

/-- The host's duty of R282: the `now` values it presents never decrease. -/
def nowNonDecreasing (ws : List OpWord) : Prop := (ws.filterMap nowOf).Pairwise (fun a b => a.toNat ≤ b.toNat)

/-- A safe step: an operation of the port's closed set that leaves a state as R29 has it. -/
def safeStep (s : State) : Prop := ∃ t, step s = .next t ∧ StateInv t

end Sys2Proof.Machine
end

