-- ==== Sys2Proof/Certificates/Slice0/Obligations.lean ====
section
/-! DEFINITION. The statements for the provers. -/

namespace Sys2Proof.Claim

open Sys2Proof Sys2Proof.Machine

/-- The record is a final one of the line `n` (spec 40_operations.md R105): Decoded, Buffered, or an Error with code 1, 2, 4, 5 or 6. -/
def isFinal (n : Tick) : Record → Prop
  | .decoded lineNo _ _ _ _ => lineNo = n
  | .buffered lineNo _ _ _ => lineNo = n
  | .error lineNo code _ _ _ => lineNo = n ∧ code ∈ [1, 2, 4, 5, 6]
  | .evicted _ _ _ _ _ _ => False

/-- The record is an Evicted record of this reason (R163). -/
def isEvicted (why : EvictReason) : Record → Prop
  | .evicted code reason _ _ _ _ => code = 3 ∧ reason = why
  | _ => False

/-- The engine's four items and the model's build and inbox are the same in both states; only the output may differ. -/
def sameButOut (s t : State) : Prop := t = { s with out := t.out }

/-- A Decoded record with its sentence id and start byte replaced; another record as it is. -/
def withSidAndStart (sid : Sid) (start : Start) : Record → Record
  | .decoded lineNo info fillUsed bitlen msg =>
    .decoded lineNo { info with sid := sid, start := start } fillUsed bitlen msg
  | .buffered lineNo key count filled => .buffered lineNo key count filled
  | .error lineNo code sub info raw => .error lineNo code sub info raw
  | .evicted code reason key count filled last => .evicted code reason key count filled last

/-- The sentence instruction with this sentence id. -/
def sentence (sid : Sid) (c : FeedContext) (f : SentenceFields) : Instr :=
  match sid with
  | .vdm => .vdm c f
  | .vdo => .vdo c f

/-- The results of `Reassemble` for fragments that arrive one after the other, each with its `now`. -/
def reassembleAll : List (SentenceFields × Tick) → State → List Reassembly
  | [], _ => []
  | x :: xs, s => (reassemble x.1 x.2 s).2 :: reassembleAll xs (reassemble x.1 x.2 s).1

/-- The sentence of an operation that reaches `Reassemble` with this key: that of a FEED whose line parses to a sentence with this key
and a count other than 1 (R104, R151, R152). -/
def fragmentOf (b : Build) (key : Key) : Instr → Option RawSentence
  | .feed line _ =>
    match parse b line with
    | .ok r => if r.fields.count ≠ 1 ∧ keyOf r.fields = key then some r else none
    | .error _ => none
  | _ => none

/-- The state after operations performed one after the other. -/
def runAll : List Instr → State → Option State
  | [], s => some s
  | i :: is, s =>
    match exec i s with
    | .next t => runAll is t
    | _ => none

/-- The records of operations performed one after the other, in order (R101). -/
def recordsOf : List Instr → State → List Record
  | [], _ => []
  | i :: is, s =>
    match exec i s with
    | .next t => t.out ++ recordsOf is t
    | _ => []

/-- The record reports an eviction of the group with this key (R163). -/
def evictsKey (key : Key) : Record → Bool
  | .evicted _ _ k _ _ _ => decide (k = key)
  | _ => false

/-- The list names exactly the filled slots of the group, the first slot being number 1, and is ascending; the order is the model's
form of the spec's set (log entry 17). -/
def listsFilled (g : Machine.Group) (filled : List Nat) : Prop :=
  (∀ j, j ∈ filled ↔ 1 ≤ j ∧ ∃ x, g.slots[j - 1]? = some (some x)) ∧ filled.Pairwise (· < ·)

/-- Decimal text: one or more digits that spell `n`, most significant first, leading zeros allowed (R65). -/
def spellsDecimal (text : Line) (n : Nat) : Prop :=
  text ≠ [] ∧ (∀ c ∈ text, 0x30 ≤ c.toNat ∧ c.toNat ≤ 0x39) ∧
    n = Nat.ofDigits 10 (text.reverse.map (fun c => c.toNat - 0x30))

/-- A hexadecimal digit of either case that stands for `v` (R68). -/
def spellsHex (c : Byte) (v : Nat) : Prop :=
  (v ≤ 9 ∧ c.toNat = 0x30 + v) ∨ (10 ≤ v ∧ v ≤ 15 ∧ (c.toNat = 0x37 + v ∨ c.toNat = 0x57 + v))

/-- The fields f1 to f5 of a sentence as text, each free of `,` and `*`. -/
def spellsFields (b : Build) (f1 f2 f3 f4 : Line) (f : SentenceFields) : Prop :=
  spellsDecimal f1 f.count ∧ 1 ≤ f.count ∧ f.count ≤ b.maxFragments ∧
  spellsDecimal f2 f.number ∧ 1 ≤ f.number ∧ f.number ≤ f.count ∧
  ((f3 = [] ∧ f.seqEmpty = true ∧ f.seq = 0) ∨ (f.seqEmpty = false ∧ spellsDecimal f3 f.seq ∧ f.seq ≤ b.seqIdMax)) ∧
  f4 = f.channel.toList ∧ (∀ c ∈ f4, c ≠ 0x2C#8 ∧ c ≠ 0x2A#8) ∧ (∀ c ∈ f.payload, c ≠ 0x2C#8 ∧ c ≠ 0x2A#8)

/-- The line spells the sentence, by the grammar of R61 with the checksum of R62 and the terminators of R121: a start byte, an
address, six fields, a star, two hexadecimal digits that are the XOR of the bytes between the start byte and the star, and then any
number of CR and LF bytes, which do not count for a finite `P_MAX_LINE`. -/
def spells (b : Build) (line : Line) (r : RawSentence) : Prop :=
  ∃ f1 f2 f3 f4 region ending : Line, ∃ h1 h2 : Byte, ∃ v1 v2 : Nat,
    line = (startByte r.fields.start :: region ++ [0x2A#8, h1, h2]) ++ ending ∧
    (∀ c ∈ ending, c = 0x0D#8 ∨ c = 0x0A#8) ∧
    (∀ n, b.maxLine = some n → (startByte r.fields.start :: region ++ [0x2A#8, h1, h2]).length ≤ n) ∧
    region = [r.fields.talker1, r.fields.talker2, 0x56#8, 0x44#8, sidByte r.sid] ++ [0x2C#8] ++ f1 ++ [0x2C#8] ++ f2 ++
      [0x2C#8] ++ f3 ++ [0x2C#8] ++ f4 ++ [0x2C#8] ++ r.fields.payload ++ [0x2C#8] ++
      [BitVec.ofNat 8 (0x30 + r.fields.fill.val)] ∧
    (0x41 ≤ r.fields.talker1.toNat ∧ r.fields.talker1.toNat ≤ 0x5A) ∧
    (0x41 ≤ r.fields.talker2.toNat ∧ r.fields.talker2.toNat ≤ 0x5A) ∧
    spellsFields b f1 f2 f3 f4 r.fields ∧
    spellsHex h1 v1 ∧ spellsHex h2 v2 ∧ r.fields.checksum = BitVec.ofNat 8 (16 * v1 + v2) ∧
    r.fields.checksum = region.foldl (· ^^^ ·) 0#8

/-- An address field: a start byte, two uppercase letters, and `VDM` or `VDO` (R130). -/
def isAddress (f0 : Line) : Prop :=
  ∃ s t1 t2 x : Byte, f0 = [s, t1, t2, 0x56#8, 0x44#8, x] ∧ (s = 0x21#8 ∨ s = 0x24#8) ∧
    (0x41 ≤ t1.toNat ∧ t1.toNat ≤ 0x5A) ∧ (0x41 ≤ t2.toNat ∧ t2.toNat ≤ 0x5A) ∧ (x = 0x4D#8 ∨ x = 0x4F#8)

/-- A line whose framing is in order: a start byte, a body without a star, a star, two hexadecimal digits for `supplied`, and
terminators; within a finite `P_MAX_LINE`. -/
def framed (b : Build) (line : Line) (start : Byte) (body : Line) (supplied : Byte) : Prop :=
  ∃ h1 h2 : Byte, ∃ v1 v2 : Nat, ∃ ending : Line,
    line = (start :: body ++ [0x2A#8, h1, h2]) ++ ending ∧ (∀ c ∈ ending, c = 0x0D#8 ∨ c = 0x0A#8) ∧
    (start = 0x21#8 ∨ start = 0x24#8) ∧ (∀ c ∈ body, c ≠ 0x2A#8) ∧
    (∀ n, b.maxLine = some n → body.length + 4 ≤ n) ∧
    spellsHex h1 v1 ∧ spellsHex h2 v2 ∧ supplied = BitVec.ofNat 8 (16 * v1 + v2)

end Sys2Proof.Claim

open Sys2Proof Sys2Proof.Machine Sys2Proof.Claim

/-! ### Reset, boot and the port -/

/-- 10_state.md R31, R24, R25: the reset values, of the default RESET. -/
def Obligations.ResetStateHasTheSpecsValues : Prop :=
  State.reset.groups = [] ∧ State.reset.feedCount = 0#64 ∧ State.reset.cfgMaxGroups = 16 ∧
    State.reset.cfgIdleTicks = 5000#64

/-- 40_operations.md R102, 10_state.md R24, R25, 70_reset_and_hazards.md R272: RESET empties the table without a record, zeroes the
counter and loads the configuration, the defaults 16 and 5000 where the host gives no value; nothing else of the state changes. -/
def Obligations.ResetLoadsConfigurationAndEmptiesTable : Prop :=
  ∀ (m : Option Nat) (t : Option Tick) (s : State), 1 ≤ m.getD 16 →
    exec (.reset m t) s =
      .next { groups := [], feedCount := 0#64, cfgMaxGroups := m.getD 16, cfgIdleTicks := t.getD 5000#64,
              build := s.build, inbox := s.inbox, out := [] }

/-- 70_reset_and_hazards.md R274: a refused RESET changes nothing and emits nothing, and as the first operation it leaves the engine
without state, so that a FEED or TICK still has no transition. That the outcome is a next state with an empty output list, and not a
refusal of the step, is the model's (log entry 7). -/
def Obligations.RefusedResetChangesNothing : Prop :=
  ∀ (t : Option Tick) (s : State) (b : Build),
    exec (.reset (some 0) t) s = .next { s with out := [] } ∧
    Boot.present { code := 0#8, operands := [.nat 0, tickOperand t] } (.unbooted b) = .next (.unbooted b)

/-- 70_reset_and_hazards.md R273: two RESETs in a row leave the state of the second alone. -/
def Obligations.SecondResetLeavesNoTraceOfTheFirst : Prop :=
  ∀ (m m' : Option Nat) (t t' : Option Tick) (s u : State), exec (.reset m t) s = .next u → 1 ≤ m'.getD 16 →
    ∃ v, exec (.reset m' t') s = .next v ∧ exec (.reset m' t') u = .next v

/-- 70_reset_and_hazards.md R270, R275: before the first RESET a FEED and a TICK have no transition, and a valid RESET makes the state
of R31. -/
def Obligations.EngineHasNoStateBeforeReset : Prop :=
  ∀ (b : Build) (line : Line) (now : Tick) (m : Option Nat) (t : Option Tick),
    Boot.present { code := 1#8, operands := [.line line, .tick now] } (.unbooted b) = .fault .beforeReset ∧
    Boot.present { code := 2#8, operands := [.tick now] } (.unbooted b) = .fault .beforeReset ∧
    (1 ≤ m.getD 16 →
      Boot.present { code := 0#8, operands := [natOperand m, tickOperand t] } (.unbooted b) =
        .next (.running { groups := [], feedCount := 0#64, cfgMaxGroups := m.getD 16, cfgIdleTicks := t.getD 5000#64,
                          build := b, inbox := [], out := [] }))

/-- 40_operations.md R100, R109, 60_exceptions.md R261: a step takes the next presented word from the port and performs the operation it
spells; a word that is no operation is refused; with nothing presented the engine keeps all of its state (the last two are the
model's choice of an outcome, log entries 4 and 8). -/
def Obligations.StepPerformsThePresentedOperation : Prop :=
  ∀ (s : State),
    (s.inbox = [] → step s = .next s) ∧
    (∀ w ws i, s.inbox = w :: ws → decode s.build (.operation w) = .ok i → step s = exec i { s with inbox := ws }) ∧
    (∀ w ws e, s.inbox = w :: ws → decode s.build (.operation w) = .error e → step s = .refused (.notAnOperation e))

/-- 30_encoding.md R60, 40_operations.md R109: the port's words are exactly RESET, FEED and TICK with operands of their types. -/
def Obligations.PortAcceptsExactlyThreeOperations : Prop :=
  ∀ (b : Build) (w : OpWord) (i : Instr),
    decode b (.operation w) = .ok i ↔
      (∃ m t, i = .reset m t ∧ w = { code := 0#8, operands := [natOperand m, tickOperand t] }) ∨
      (∃ line now, i = .feed line now ∧ w = { code := 1#8, operands := [.line line, .tick now] }) ∨
      (∃ now, i = .tick now ∧ w = { code := 2#8, operands := [.tick now] })

/-! ### TICK and idle eviction -/

/-- 40_operations.md R108, 42_fragment_reassembler.md R160, R161, R163: TICK removes exactly the groups whose idle age, saturating at 0,
is over the threshold, and emits one Evicted record for each, in order of `last_activity` and then of key; all else stays. -/
def Obligations.TickEvictsExactlyTheIdleGroups : Prop :=
  ∀ (now : Tick) (s : State), ∃ (t : State) (evicted : List (Key × Group)),
    exec (.tick now) s = .next t ∧
    evicted.Perm (s.groups.filter (fun e => s.cfgIdleTicks.toNat < now.toNat - e.2.lastActivity.toNat)) ∧
    evicted.Pairwise (fun e f => e.2.lastActivity.toNat < f.2.lastActivity.toNat ∨
      (e.2.lastActivity = f.2.lastActivity ∧ keyBefore f.1 e.1 = false)) ∧
    t.out = evicted.map (fun e => .evicted 3 .idle e.1 e.2.count (filledNumbers e.2) e.2.lastActivity) ∧
    t.groups = s.groups.filter (fun e => !decide (s.cfgIdleTicks.toNat < now.toNat - e.2.lastActivity.toNat)) ∧
    t = { s with groups := t.groups, out := t.out }

/-- 10_state.md R22: key order: no channel first, then by channel byte, then by sequential id; it is a strict total order. -/
def Obligations.KeyOrderIsTotal : Prop :=
  (∀ (q r : Nat) (a b : Byte),
    keyBefore { channel := none, seq := q } { channel := some b, seq := r } = true ∧
    keyBefore { channel := some a, seq := q } { channel := none, seq := r } = false ∧
    keyBefore { channel := none, seq := q } { channel := none, seq := r } = decide (q < r) ∧
    keyBefore { channel := some a, seq := q } { channel := some b, seq := r } =
      decide (a.toNat < b.toNat ∨ a = b ∧ q < r)) ∧
  (∀ k l : Key, keyBefore k l = true ∨ k = l ∨ keyBefore l k = true) ∧
  (∀ k l m : Key, keyBefore k l = true → keyBefore l m = true → keyBefore k m = true) ∧
  ∀ k : Key, keyBefore k k = false

/-- 42_fragment_reassembler.md R163, R165: `filledNumbers` gives the numbers of a group's filled slots, ascending; that they ascend is
the model's choice (log entry 17). What the records list is `RecordsListTheFilledSlots`. -/
def Obligations.FilledNumbersAreThoseOfTheFilledSlots : Prop :=
  ∀ g : Machine.Group,
    (∀ j, j ∈ filledNumbers g ↔ 1 ≤ j ∧ ∃ x, g.slots[j - 1]? = some (some x)) ∧ (filledNumbers g).Pairwise (· < ·)

/-- 42_fragment_reassembler.md R163: each evicted group gives exactly one Evicted record, so a second TICK at the same time emits
none and changes nothing. -/
def Obligations.IdleEvictionReportsOnce : Prop :=
  ∀ (now : Tick) (s t : State), exec (.tick now) s = .next t → exec (.tick now) t = .next { t with out := [] }

/-- 40_operations.md R108, 42_fragment_reassembler.md R160: after a TICK the key of a group that has aged out has no group, and the key
of another has its group as before. What a FEED does is `AgedGroupIsGoneBeforeTheLine`. -/
def Obligations.TickRemovesAGroupExactlyWhenAged : Prop :=
  ∀ (now : Tick) (s : State) (k : Key) (g : Group), tableWf s.groups = true → lookup k s.groups = some g →
    ∃ u, exec (.tick now) s = .next u ∧
      lookup k u.groups = if s.cfgIdleTicks.toNat < now.toNat - g.lastActivity.toNat then none else some g

/-! ### FEED -/

/-- 40_operations.md R104, R105, 10_state.md R23, 60_exceptions.md R249: every FEED, of any line, in any state, completes; it takes one
line number; its output is the idle evictions (those a TICK would make), then at most one capacity eviction, then exactly one final
record with the line's number; the configuration stays. -/
def Obligations.FeedEndsInExactlyOneFinalRecord : Prop :=
  ∀ (line : Line) (now : Tick) (s : State), ∃ (u t : State) (capacity : List Record) (final : Record),
    exec (.tick now) s = .next u ∧ exec (.feed line now) s = .next t ∧
    t.out = u.out ++ capacity ++ [final] ∧ capacity.length ≤ 1 ∧ (∀ r ∈ capacity, isEvicted .capacity r) ∧
    (∀ r ∈ u.out, isEvicted .idle r) ∧ isFinal s.feedCount final ∧
    t = { s with feedCount := s.feedCount + 1#64, groups := t.groups, out := t.out }

/-- 60_exceptions.md R241, R251: a FEED whose line fails the parser evicts as a TICK does, takes a line number, emits the Error record
with the line as it was supplied, and changes nothing else. -/
def Obligations.UnparsedLineCostsOneErrorRecord : Prop :=
  ∀ (line : Line) (now : Tick) (s : State) (e : ErrorKind), parse s.build line = .error e →
    ∃ u, exec (.tick now) s = .next u ∧
      exec (.feed line now) s =
        .next { u with feedCount := s.feedCount + 1#64,
                       out := u.out ++ [.error s.feedCount (errorCode e) (errorSub e) (errorInfo e) line] }

/-- 40_operations.md R104: a FEED whose line parses runs the sentence instruction the line spells, after eviction and with its line
number taken. -/
def Obligations.FeedRunsTheSentenceItsLineSpells : Prop :=
  ∀ (line : Line) (now : Tick) (s : State) (i : Instr),
    decode s.build (.sentence { lineNo := s.feedCount, raw := line, now := now } line) = .ok i →
    ∃ u, exec (.tick now) s = .next u ∧ exec (.feed line now) s = exec i { u with feedCount := s.feedCount + 1#64 }

/-- 40_operations.md R104, R110: the decode of any payload, of one fragment or of many, runs the message instruction its bitstream
spells, with the parsed fields, the fill count and the bitstream's length; and so a whole message in one sentence runs the message
instruction its payload spells. -/
def Obligations.SentenceRunsTheMessageItsPayloadSpells : Prop :=
  (∀ (b : Build) (c : FeedContext) (info : Meta) (payload : Line) (fill : Fin 6) (s : State) (bits : Bits) (i : Instr),
    armorDecode payload fill = .ok bits →
    decode b (.message { lineNo := c.lineNo, info := info, fillUsed := fill } bits) = .ok i →
    decodePayload c info payload fill s = exec i s) ∧
  ∀ (b : Build) (sid : Sid) (c : FeedContext) (f : SentenceFields) (s : State) (bits : Bits) (i : Instr), f.count = 1 →
    armorDecode f.payload f.fill = .ok bits →
    decode b (.message { lineNo := c.lineNo, info := metaOf { sid := sid, fields := f }, fillUsed := f.fill } bits) = .ok i →
    exec (sentence sid c f) s = exec i s

/-! ### VDM and VDO: bypass, reassembly, completion -/

/-- 42_fragment_reassembler.md R150: a single fragment goes to the decode and touches no group, whatever the table holds; it emits one
final record. -/
def Obligations.SingleFragmentBypassesTheTable : Prop :=
  ∀ (sid : Sid) (c : FeedContext) (f : SentenceFields) (s : State), f.count = 1 →
    ∃ r, exec (sentence sid c f) s = .next { s with out := s.out ++ [r] } ∧ isFinal c.lineNo r ∧
      exec (sentence sid c f) s = decodePayload c (metaOf { sid := sid, fields := f }) f.payload f.fill s

/-- 42_fragment_reassembler.md R155, R156, R165: the first fragment of a message, with room in the table, makes a group with its one
slot filled and the FEED's `now`, and is reported as Buffered. -/
def Obligations.FirstFragmentOpensAGroup : Prop :=
  ∀ (sid : Sid) (c : FeedContext) (f : SentenceFields) (s : State),
    2 ≤ f.count → 1 ≤ f.number → f.number ≤ f.count → lookup (keyOf f) s.groups = none →
    s.groups.length < s.cfgMaxGroups →
    exec (sentence sid c f) s =
      .next { s with
        groups := insert (keyOf f)
          { count := f.count
            slots := (List.replicate f.count none).set (f.number - 1) (some { payload := f.payload, fill := f.fill })
            lastActivity := c.now } s.groups
        out := s.out ++ [.buffered c.lineNo (keyOf f) f.count [f.number]] }

/-- 42_fragment_reassembler.md R162, R163: when a group must be made and the table is full, the group with the least `last_activity`,
and among those the first in key order, is removed with one Evicted record; then the new group is made. -/
def Obligations.FullTableEvictsTheStalestGroup : Prop :=
  ∀ (sid : Sid) (c : FeedContext) (f : SentenceFields) (s : State),
    2 ≤ f.count → 1 ≤ f.number → f.number ≤ f.count → lookup (keyOf f) s.groups = none →
    s.groups ≠ [] → s.cfgMaxGroups ≤ s.groups.length →
    ∃ e ∈ s.groups,
      (∀ e' ∈ s.groups, e.2.lastActivity.toNat < e'.2.lastActivity.toNat ∨
        (e.2.lastActivity = e'.2.lastActivity ∧ keyBefore e'.1 e.1 = false)) ∧
      exec (sentence sid c f) s =
        .next { s with
          groups := insert (keyOf f)
            { count := f.count
              slots := (List.replicate f.count none).set (f.number - 1) (some { payload := f.payload, fill := f.fill })
              lastActivity := c.now } (remove e.1 s.groups)
          out := s.out ++
            [.evicted 3 .capacity e.1 e.2.count (filledNumbers e.2) e.2.lastActivity,
             .buffered c.lineNo (keyOf f) f.count [f.number]] }

/-- 42_fragment_reassembler.md R156, R165: a fragment of a pending group that it does not supersede fills or overwrites its slot, keeps
the other slots and refreshes `last_activity`; while a slot is empty the FEED is reported as Buffered, with the numbers now filled. That
the record lists them in ascending order is the model's choice (log entry 17), for R165 gives a set. -/
def Obligations.FragmentJoinsItsPendingGroup : Prop :=
  ∀ (sid : Sid) (c : FeedContext) (f : SentenceFields) (s : State) (g : Group),
    2 ≤ f.count → 1 ≤ f.number → f.number ≤ f.count → lookup (keyOf f) s.groups = some g → g.count = f.count →
    (f.number = 1 → slotAt g 1 = none) → g.slots.length = g.count →
    (∃ j, 1 ≤ j ∧ j ≤ g.count ∧ j ≠ f.number ∧ slotAt g j = none) →
    ∃ filled, (∀ j, j ∈ filled ↔ j = f.number ∨ (slotAt g j).isSome) ∧ filled.Pairwise (· < ·) ∧
      exec (sentence sid c f) s =
        .next { s with
          groups := insert (keyOf f)
            { count := g.count
              slots := g.slots.set (f.number - 1) (some { payload := f.payload, fill := f.fill })
              lastActivity := c.now } s.groups
          out := s.out ++ [.buffered c.lineNo (keyOf f) f.count filled] }

/-- 42_fragment_reassembler.md R157, 60_exceptions.md R254: the fragment that fills the last empty slot completes the message: the group
is removed without a record, the payloads are joined in fragment-number order, the fill count is that of fragment N, and the pair goes
to the decode with the completing sentence's fields. -/
def Obligations.LastFragmentCompletesTheMessage : Prop :=
  ∀ (sid : Sid) (c : FeedContext) (f : SentenceFields) (s : State) (g : Group) (front : List Slot) (last : Slot),
    2 ≤ f.count → 1 ≤ f.number → f.number ≤ f.count → lookup (keyOf f) s.groups = some g → g.count = f.count →
    (f.number = 1 → slotAt g 1 = none) → front.length + 1 = g.count →
    g.slots.set (f.number - 1) (some { payload := f.payload, fill := f.fill }) = (front ++ [last]).map some →
    exec (sentence sid c f) s =
        decodePayload c (metaOf { sid := sid, fields := f }) ((front ++ [last]).flatMap Slot.payload) last.fill
          { s with groups := remove (keyOf f) s.groups } ∧
      ∃ r, exec (sentence sid c f) s = .next { s with groups := remove (keyOf f) s.groups, out := s.out ++ [r] } ∧
        isFinal c.lineNo r

/-- 42_fragment_reassembler.md R153, R154, R155: a second fragment 1, or a fragment with another count, removes the group with its key
without a record and starts a new group in the place that this frees. -/
def Obligations.SupersessionIsSilent : Prop :=
  ∀ (sid : Sid) (c : FeedContext) (f : SentenceFields) (s : State) (g : Group),
    2 ≤ f.count → 1 ≤ f.number → f.number ≤ f.count → s.groups.length ≤ s.cfgMaxGroups →
    lookup (keyOf f) s.groups = some g →
    (g.count ≠ f.count ∨ (f.number = 1 ∧ (slotAt g 1).isSome)) →
    exec (sentence sid c f) s =
      .next { s with
        groups := insert (keyOf f)
          { count := f.count
            slots := (List.replicate f.count none).set (f.number - 1) (some { payload := f.payload, fill := f.fill })
            lastActivity := c.now } (remove (keyOf f) s.groups)
        out := s.out ++ [.buffered c.lineNo (keyOf f) f.count [f.number]] }

/-- 42_fragment_reassembler.md R159: the fragments of one message, each arriving once and one after the other, in any order, give
Pending and then, with the last of them, the same complete message: the payloads in fragment-number order and the fill count of
fragment N. With other operations between them it is `InterleavedFragmentsCompleteTheMessage`. -/
def Obligations.ReassemblyIsOrderInsensitive : Prop :=
  ∀ (s : State) (key : Key) (n : Nat) (arrivals : List (SentenceFields × Tick)) (ordered : List SentenceFields)
    (last : SentenceFields),
    2 ≤ n → lookup key s.groups = none →
    (∀ x ∈ arrivals, keyOf x.1 = key ∧ x.1.count = n) →
    (arrivals.map Prod.fst).Perm (ordered ++ [last]) →
    (ordered ++ [last]).map SentenceFields.number = List.range' 1 n →
    ∃ pending, reassembleAll arrivals s =
        pending ++ [.complete ((ordered ++ [last]).flatMap SentenceFields.payload) last.fill] ∧
      ∀ r ∈ pending, ∃ filled, r = .pending key filled

/-- 42_fragment_reassembler.md R151, R152, 10_state.md R22: the frame of VDM and VDO: a group with another key is as before, but that the
one group evicted for capacity is gone; nothing else of the state changes but the output, to which the instruction adds the record of
that one eviction, if there is one, and then one final record (R162, R105). -/
def Obligations.OtherGroupsAreLeftAlone : Prop :=
  ∀ (sid : Sid) (c : FeedContext) (f : SentenceFields) (s : State), ∃ t, exec (sentence sid c f) s = .next t ∧
    t = { s with groups := t.groups, out := t.out } ∧
    ∃ (victims : List (Key × Group)) (final : Record), victims.length ≤ 1 ∧ (∀ e ∈ victims, e ∈ s.groups) ∧
      t.out = s.out ++
        victims.map (fun e => .evicted 3 .capacity e.1 e.2.count (filledNumbers e.2) e.2.lastActivity) ++ [final] ∧
      isFinal c.lineNo final ∧
      ∀ k, k ≠ keyOf f → lookup k t.groups = lookup k s.groups ∨ (lookup k t.groups = none ∧ ∃ g, (k, g) ∈ victims)

/-- 41_sentence_parser.md R140: VDM and VDO sentences, and those of either start byte, are reassembled and decoded identically; only
the sentence id and the start byte in a Decoded record tell them apart. -/
def Obligations.VdmAndVdoAreTreatedAlike : Prop :=
  ∀ (sid : Sid) (start : Start) (c : FeedContext) (f : SentenceFields) (s : State), ∃ (t : State) (new : List Record),
    exec (.vdm c f) s = .next t ∧ t.out = s.out ++ new ∧
    exec (sentence sid c { f with start := start }) s =
      .next { t with out := s.out ++ new.map (withSidAndStart sid start) }

/-! ### Invariants -/

/-- 10_state.md R29: the reset state meets the invariant. -/
def Obligations.ResetMeetsTheInvariant : Prop := StateInv State.reset ∧ slotsBounded State.reset

/-- 10_state.md R24, R29: every operation keeps the table within its capacity and in canonical form, every group with a filled and an
empty slot and a legal count, and every sequential id in range. -/
def Obligations.EveryStepKeepsTheInvariant : Prop :=
  ∀ (s t : State), StateInv s → step s = .next t → StateInv t

/-- 20_memory.md R50: with a finite P_MAX_LINE no operation stores a payload longer than it, and then the bytes held are bounded. -/
def Obligations.StoredPayloadsStayBounded : Prop :=
  ∀ (s : State), StateInv s → slotsBounded s →
    (∀ t, step s = .next t → slotsBounded t) ∧
    (∀ n, s.build.maxLine = some n → storedBytes s.groups ≤ s.cfgMaxGroups * (s.build.maxFragments - 1) * n)

/-! ### The parser -/

/-- 30_encoding.md R61 to R68, 41_sentence_parser.md R120 to R138: the parser accepts exactly the lines of the grammar, and returns
what they spell. -/
def Obligations.ParserAcceptsExactlyTheGrammar : Prop :=
  ∀ (b : Build) (line : Line) (r : RawSentence), parse b line = .ok r ↔ spells b line r

/-- 41_sentence_parser.md R121: every trailing CR and LF byte is removed, as many as there are, in any mix, and nothing else; so they
make no difference to the parse. -/
def Obligations.TerminatorsDoNotMatter : Prop :=
  (∀ line : Line,
    (∃ ending, line = stripTerminators line ++ ending ∧ ∀ c ∈ ending, c = 0x0D#8 ∨ c = 0x0A#8) ∧
    ∀ c, (stripTerminators line).getLast? = some c → c ≠ 0x0D#8 ∧ c ≠ 0x0A#8) ∧
  ∀ (b : Build) (line ending : Line), (∀ c ∈ ending, c = 0x0D#8 ∨ c = 0x0A#8) →
    parse b (line ++ ending) = parse b line ∧ parse b line = parse b (stripTerminators line)

/-- 41_sentence_parser.md R127, R128: a framed line whose checksum disagrees is a ChecksumMismatch with both values, whatever its
fields are, and costs a FEED one Error record with code 2 and no change to the table beyond idle eviction. -/
def Obligations.WrongChecksumIsAlwaysReported : Prop :=
  ∀ (line : Line) (start : Byte) (body : Line) (supplied : Byte) (now : Tick) (s : State),
    framed s.build line start body supplied → body.foldl (· ^^^ ·) 0#8 ≠ supplied →
    parse s.build line = .error (.checksumMismatch (body.foldl (· ^^^ ·) 0#8) supplied) ∧
    ∃ u, exec (.tick now) s = .next u ∧
      exec (.feed line now) s =
        .next { u with feedCount := s.feedCount + 1#64,
                       out := u.out ++ [.error s.feedCount 2 0 (.checksum (body.foldl (· ^^^ ·) 0#8) supplied) line] }

/-- 41_sentence_parser.md R122, R124, R125, R126, R139: the framing checks, in their order, on a line that does not end
in a terminator (for terminators see `TerminatorsDoNotMatter`). -/
def Obligations.FramingChecksComeInOrder : Prop :=
  ∀ (b : Build) (line : Line), (∀ c, line.getLast? = some c → c ≠ 0x0D#8 ∧ c ≠ 0x0A#8) →
    ((∃ n, b.maxLine = some n ∧ n < line.length) → parse b line = .error (.malformed .lineTooLong)) ∧
    ((∀ n, b.maxLine = some n → line.length ≤ n) →
      ((line.head? ≠ some 0x21#8 ∧ line.head? ≠ some 0x24#8) → parse b line = .error (.malformed .noStart)) ∧
      ((line.head? = some 0x21#8 ∨ line.head? = some 0x24#8) →
        (0x2A#8 ∉ line → parse b line = .error (.malformed .noStar)) ∧
        (∀ body rest, line = body ++ 0x2A#8 :: rest → 0x2A#8 ∉ body →
          (¬ ∃ h1 h2 v1 v2, rest = [h1, h2] ∧ spellsHex h1 v1 ∧ spellsHex h2 v2) →
          parse b line = .error (.malformed .badChecksumField))))

/-- 41_sentence_parser.md R129 to R137, R139: the field checks of a framed line with a right checksum, in their order; `fields` are
the pieces of the body between its commas, the start byte in the first. -/
def Obligations.FieldChecksComeInOrder : Prop :=
  ∀ (b : Build) (line : Line) (start : Byte) (body : Line) (fields : List Line),
    framed b line start body (body.foldl (· ^^^ ·) 0#8) →
    fields ≠ [] → (∀ f ∈ fields, 0x2C#8 ∉ f) → start :: body = List.intercalate [0x2C#8] fields →
    (fields.length ≠ 7 → parse b line = .error (.malformed .fieldCount)) ∧
    (∀ f0 f1 f2 f3 f4 f5 f6, fields = [f0, f1, f2, f3, f4, f5, f6] →
      (¬ isAddress f0 → parse b line = .error (.malformed .badAddress)) ∧
      (isAddress f0 →
        ((∀ n, spellsDecimal f1 n → n < 1 ∨ b.maxFragments < n) → parse b line = .error (.malformed .badCount)) ∧
        (∀ n, spellsDecimal f1 n → 1 ≤ n → n ≤ b.maxFragments →
          ((∀ k, spellsDecimal f2 k → k < 1) → parse b line = .error (.malformed .badNumber)) ∧
          (∀ k, spellsDecimal f2 k → 1 ≤ k →
            (n < k → parse b line = .error (.malformed .numberExceedsCount)) ∧
            (k ≤ n →
              ((f3 ≠ [] ∧ ∀ q, spellsDecimal f3 q → b.seqIdMax < q) → parse b line = .error (.malformed .badSeqId)) ∧
              ((f3 = [] ∨ ∃ q, spellsDecimal f3 q ∧ q ≤ b.seqIdMax) →
                (1 < f4.length → parse b line = .error (.malformed .badChannel)) ∧
                (f4.length ≤ 1 → (¬ ∃ d : Nat, d ≤ 5 ∧ f6 = [BitVec.ofNat 8 (0x30 + d)]) →
                  parse b line = .error (.malformed .badFill))))))))

/-- 60_exceptions.md R240 to R247: the code, the sub-code and the content of each kind of Error record. -/
def Obligations.ErrorRecordsCarryTheirCodes : Prop :=
  ∀ (n : Tick) (raw : Line) (a b : Byte) (i l k t : Nat) (o : Option Nat),
    errorRecord n (.malformed .lineTooLong) raw = .error n 1 1 .empty raw ∧
    errorRecord n (.malformed .noStart) raw = .error n 1 2 .empty raw ∧
    errorRecord n (.malformed .noStar) raw = .error n 1 3 .empty raw ∧
    errorRecord n (.malformed .badChecksumField) raw = .error n 1 4 .empty raw ∧
    errorRecord n (.malformed .fieldCount) raw = .error n 1 5 .empty raw ∧
    errorRecord n (.malformed .badAddress) raw = .error n 1 6 .empty raw ∧
    errorRecord n (.malformed .badCount) raw = .error n 1 7 .empty raw ∧
    errorRecord n (.malformed .badNumber) raw = .error n 1 8 .empty raw ∧
    errorRecord n (.malformed .numberExceedsCount) raw = .error n 1 9 .empty raw ∧
    errorRecord n (.malformed .badSeqId) raw = .error n 1 10 .empty raw ∧
    errorRecord n (.malformed .badChannel) raw = .error n 1 11 .empty raw ∧
    errorRecord n (.malformed .badFill) raw = .error n 1 12 .empty raw ∧
    errorRecord n (.checksumMismatch a b) raw = .error n 2 0 (.checksum a b) raw ∧
    errorRecord n (.invalidArmor i a) raw = .error n 4 0 (.armor i a) raw ∧
    errorRecord n (.truncated o l k) raw = .error n 5 0 (.truncated o l k) raw ∧
    errorRecord n (.unsupportedType t) raw = .error n 6 0 (.unsupported t) raw

/-! ### Armor -/

/-- 43_armor_decoder.md R186: armor-encoding a bit sequence of length m >= 1, padded with (6 - m mod 6) mod 6 zero bits, and
decoding it with that fill count gives the sequence back. -/
def Obligations.ArmorRoundTrip : Prop :=
  ∀ bits : Bits, 1 ≤ bits.length →
    (fillFor bits.length).val = (6 - bits.length % 6) % 6 ∧
    armorDecode (armorEncode bits) (fillFor bits.length) = .ok bits

/-- 30_encoding.md R71, R72: the armor alphabet, its inverse map, and that encoding a decoded character gives it back. -/
def Obligations.ArmorAlphabetHasTwoRanges : Prop :=
  (∀ c : Byte,
    (0x30 ≤ c.toNat ∧ c.toNat ≤ 0x57 → armorValue c = some (BitVec.ofNat 6 (c.toNat - 0x30))) ∧
    (0x60 ≤ c.toNat ∧ c.toNat ≤ 0x77 → armorValue c = some (BitVec.ofNat 6 (c.toNat - 0x38))) ∧
    (¬ (0x30 ≤ c.toNat ∧ c.toNat ≤ 0x57) ∧ ¬ (0x60 ≤ c.toNat ∧ c.toNat ≤ 0x77) → armorValue c = none) ∧
    (∀ v, armorValue c = some v → armorByte v = c)) ∧
  ∀ v : BitVec 6, (armorByte v).toNat = if v.toNat < 40 then v.toNat + 0x30 else v.toNat + 0x38

/-- 43_armor_decoder.md R181, R182, R185: bit 6i + j of the bitstream is bit 5 - j of character i's value, and the length is 6n - fill
for n >= 1 characters and 0 for none. -/
def Obligations.ArmorBitsAreMostSignificantFirst : Prop :=
  ∀ (values : List (BitVec 6)) (payload : Line) (fill : Fin 6), payload.map armorValue = values.map some →
    ∃ bits, armorDecode payload fill = .ok bits ∧
      bits.length = (if 1 ≤ payload.length then 6 * payload.length - fill.val else 0) ∧
      ∀ (i j : Nat) (v : BitVec 6), j < 6 → 6 * i + j < bits.length → values[i]? = some v →
        bits[6 * i + j]? = some (v.getLsbD (5 - j))

/-- 43_armor_decoder.md R183, 60_exceptions.md R245: an invalid byte anywhere fails the whole message; the lowest invalid index of the
payload given to the armor decoder is reported with its byte, and the one Error record is all that the decode of that payload leaves. -/
def Obligations.LowestInvalidArmorByteIsReported : Prop :=
  ∀ (before after : Line) (byte : Byte) (fill : Fin 6), (∀ c ∈ before, (armorValue c).isSome) → armorValue byte = none →
    armorDecode (before ++ byte :: after) fill = .error (.invalidArmor before.length byte) ∧
    ∀ (c : FeedContext) (info : Meta) (s : State),
      decodePayload c info (before ++ byte :: after) fill s =
        .next { s with out := s.out ++ [.error c.lineNo 4 0 (.armor before.length byte) c.raw] }

/-- 43_armor_decoder.md R184: the fill bits are not looked at: two last characters that differ in them alone give the same result. -/
def Obligations.FillBitsAreNotInspected : Prop :=
  ∀ (front : Line) (v w : BitVec 6) (fill : Fin 6), v.toNat / 2 ^ fill.val = w.toNat / 2 ^ fill.val →
    armorDecode (front ++ [armorByte v]) fill = armorDecode (front ++ [armorByte w]) fill

/-- 43_armor_decoder.md R185: an empty payload gives the empty bitstream for every fill count, and the extractor then reports it as
truncated. -/
def Obligations.EmptyPayloadIsTruncated : Prop :=
  ∀ (fill : Fin 6) (c : FeedContext) (info : Meta) (s : State),
    armorDecode [] fill = .ok [] ∧
    decodePayload c info [] fill s = .next { s with out := s.out ++ [.error c.lineNo 5 0 (.truncated none 0 6) c.raw] }

/-! ### Messages -/

/-- 44_field_extractor.md R191, R192, R193: what the extractor reports instead of a message, in the order of its checks; the one Error
record is all that the decode of that payload leaves. -/
def Obligations.ShortAndUnsupportedMessagesAreReported : Prop :=
  ∀ (c : FeedContext) (info : Meta) (payload : Line) (fill : Fin 6) (s : State) (bits : Bits),
    armorDecode payload fill = .ok bits →
    (bits.length < 6 →
      decodePayload c info payload fill s =
        .next { s with out := s.out ++ [.error c.lineNo 5 0 (.truncated none bits.length 6) c.raw] }) ∧
    (6 ≤ bits.length →
      (U bits 0 6 = 0 ∨ 6 ≤ U bits 0 6 →
        decodePayload c info payload fill s =
          .next { s with out := s.out ++ [.error c.lineNo 6 0 (.unsupported (U bits 0 6)) c.raw] }) ∧
      (∀ need, (U bits 0 6 = 1 ∨ U bits 0 6 = 2 ∨ U bits 0 6 = 3) ∧ need = 143 ∨ U bits 0 6 = 4 ∧ need = 138 ∨
          U bits 0 6 = 5 ∧ need = 422 →
        bits.length < need →
        decodePayload c info payload fill s =
          .next { s with out := s.out ++ [.error c.lineNo 5 0 (.truncated (some (U bits 0 6)) bits.length need) c.raw] }))

/-- 30_encoding.md R74, R75, R79, 44_field_extractor.md R194, R200: a bitstream of type 1, 2 or 3 with at least 143 bits is that message,
its fields at the layout's places, the three signed ones in two's complement; later bits make no difference. -/
def Obligations.PositionFieldsStandAtTheirBits : Prop :=
  ∀ (b : Build) (c : MessageContext) (bits : Bits), 143 ≤ bits.length →
    (U bits 0 6 = 1 ∨ U bits 0 6 = 2 ∨ U bits 0 6 = 3) →
    ∃ f : PositionFields,
      decode b (.message c bits) =
        .ok (if U bits 0 6 = 1 then .msg1 c bits.length f else if U bits 0 6 = 2 then .msg2 c bits.length f
             else .msg3 c bits.length f) ∧
      f.repeatInd.toNat = U bits 6 2 ∧ f.mmsi.toNat = U bits 8 30 ∧ f.navStatus.toNat = U bits 38 4 ∧
      f.rot.toInt = S bits 42 8 ∧ f.sog.toNat = U bits 50 10 ∧ f.accuracy.toNat = U bits 60 1 ∧
      f.lon.toInt = S bits 61 28 ∧ f.lat.toInt = S bits 89 27 ∧ f.cog.toNat = U bits 116 12 ∧
      f.heading.toNat = U bits 128 9 ∧ f.second.toNat = U bits 137 6

/-- 30_encoding.md R74, R76, R79, 44_field_extractor.md R194, R214: a bitstream of type 4 with at least 138 bits. -/
def Obligations.BaseStationFieldsStandAtTheirBits : Prop :=
  ∀ (b : Build) (c : MessageContext) (bits : Bits), 138 ≤ bits.length → U bits 0 6 = 4 →
    ∃ f : BaseStationFields,
      decode b (.message c bits) = .ok (.msg4 c bits.length f) ∧
      f.repeatInd.toNat = U bits 6 2 ∧ f.mmsi.toNat = U bits 8 30 ∧ f.year.toNat = U bits 38 14 ∧
      f.month.toNat = U bits 52 4 ∧ f.day.toNat = U bits 56 5 ∧ f.hour.toNat = U bits 61 5 ∧
      f.minute.toNat = U bits 66 6 ∧ f.second.toNat = U bits 72 6 ∧ f.accuracy.toNat = U bits 78 1 ∧
      f.lon.toInt = S bits 79 28 ∧ f.lat.toInt = S bits 107 27 ∧ f.epfd.toNat = U bits 134 4

/-- 30_encoding.md R74, R77, R78, R79, 44_field_extractor.md R194, R220, R221: a bitstream of type 5 with at least 422 bits; character i
of a text field at bit a is the text byte of U(a + 6i, 6). -/
def Obligations.StaticFieldsStandAtTheirBits : Prop :=
  ∀ (b : Build) (c : MessageContext) (bits : Bits), 422 ≤ bits.length → U bits 0 6 = 5 →
    ∃ f : StaticFields,
      decode b (.message c bits) = .ok (.msg5 c bits.length f) ∧
      f.repeatInd.toNat = U bits 6 2 ∧ f.mmsi.toNat = U bits 8 30 ∧ f.aisVersion.toNat = U bits 38 2 ∧
      f.imo.toNat = U bits 40 30 ∧
      textChars 7 f.callsign = (List.range 7).map (fun i => textByte (U bits (70 + 6 * i) 6)) ∧
      textChars 20 f.shipname = (List.range 20).map (fun i => textByte (U bits (112 + 6 * i) 6)) ∧
      f.shipType.toNat = U bits 232 8 ∧ f.toBow.toNat = U bits 240 9 ∧ f.toStern.toNat = U bits 249 9 ∧
      f.toPort.toNat = U bits 258 6 ∧ f.toStarboard.toNat = U bits 264 6 ∧ f.epfd.toNat = U bits 270 4 ∧
      f.etaMonth.toNat = U bits 274 4 ∧ f.etaDay.toNat = U bits 278 5 ∧ f.etaHour.toNat = U bits 283 5 ∧
      f.etaMinute.toNat = U bits 288 6 ∧ f.draught.toNat = U bits 294 8 ∧
      textChars 20 f.destination = (List.range 20).map (fun i => textByte (U bits (302 + 6 * i) 6))

/-- 44_field_extractor.md R200, R203, R204 to R212: MSG1, MSG2 and MSG3 emit one Decoded record with the raw values and their classes;
they differ in the type alone, and nothing else of the state changes. -/
def Obligations.PositionMessagesEmitTheirReport : Prop :=
  ∀ (c : MessageContext) (bitlen : Nat) (f : PositionFields) (s : State) (t : Nat) (i : Instr),
    (t = 1 ∧ i = .msg1 c bitlen f ∨ t = 2 ∧ i = .msg2 c bitlen f ∨ t = 3 ∧ i = .msg3 c bitlen f) →
    exec i s =
      .next { s with out := s.out ++ [.decoded c.lineNo c.info c.fillUsed bitlen (.position
        { type := t, repeatInd := f.repeatInd.toNat, mmsi := f.mmsi.toNat, navStatus := f.navStatus.toNat
          rot := f.rot.toInt, rotClass := rotClass f.rot.toInt, sog := f.sog.toNat, sogClass := sogClass f.sog.toNat
          accuracy := decide (f.accuracy.toNat = 1), lon := f.lon.toInt, lonClass := lonClass f.lon.toInt
          lat := f.lat.toInt, latClass := latClass f.lat.toInt, cog := f.cog.toNat, cogClass := cogClass f.cog.toNat
          heading := f.heading.toNat, headingClass := headingClass f.heading.toNat
          second := f.second.toNat, secondClass := secondClass f.second.toNat })] }

/-- 44_field_extractor.md R214, R215: MSG4 emits one Decoded record, its date and time raw but for the second's class; nothing else
changes. -/
def Obligations.BaseStationMessageEmitsItsReport : Prop :=
  ∀ (c : MessageContext) (bitlen : Nat) (f : BaseStationFields) (s : State),
    exec (.msg4 c bitlen f) s =
      .next { s with out := s.out ++ [.decoded c.lineNo c.info c.fillUsed bitlen (.baseStation
        { type := 4, repeatInd := f.repeatInd.toNat, mmsi := f.mmsi.toNat, year := f.year.toNat, month := f.month.toNat
          day := f.day.toNat, hour := f.hour.toNat, minute := f.minute.toNat, second := f.second.toNat
          secondClass := secondClass f.second.toNat, accuracy := decide (f.accuracy.toNat = 1)
          lon := f.lon.toInt, lonClass := lonClass f.lon.toInt, lat := f.lat.toInt, latClass := latClass f.lat.toInt
          epfd := f.epfd.toNat })] }

/-- 44_field_extractor.md R220, R222: MSG5 emits one Decoded record, its texts trimmed and its numbers raw; nothing else changes. -/
def Obligations.StaticMessageEmitsItsReport : Prop :=
  ∀ (c : MessageContext) (bitlen : Nat) (f : StaticFields) (s : State),
    exec (.msg5 c bitlen f) s =
      .next { s with out := s.out ++ [.decoded c.lineNo c.info c.fillUsed bitlen (.staticData
        { type := 5, repeatInd := f.repeatInd.toNat, mmsi := f.mmsi.toNat, aisVersion := f.aisVersion.toNat
          imo := f.imo.toNat, callsign := text 7 f.callsign, shipname := text 20 f.shipname, shipType := f.shipType.toNat
          toBow := f.toBow.toNat, toStern := f.toStern.toNat, toPort := f.toPort.toNat
          toStarboard := f.toStarboard.toNat, epfd := f.epfd.toNat, etaMonth := f.etaMonth.toNat
          etaDay := f.etaDay.toNat, etaHour := f.etaHour.toNat, etaMinute := f.etaMinute.toNat
          draught := f.draught.toNat, destination := text 20 f.destination })] }

/-- 44_field_extractor.md R221: character i of `Text(a, m)` is the byte of `U(a + 6i, 6)`, which is v + 0x40 below 32 and v otherwise;
trailing `@` and space bytes are removed until the last byte is neither; nothing else is removed. -/
def Obligations.TextIsTrimmedOfTrailingPadding : Prop :=
  ∀ (bits : Bits) (a m : Nat), a + 6 * m ≤ bits.length →
    (∃ padding,
      (List.range m).map (fun i =>
          if U bits (a + 6 * i) 6 < 32 then BitVec.ofNat 8 (U bits (a + 6 * i) 6 + 0x40)
          else BitVec.ofNat 8 (U bits (a + 6 * i) 6)) =
        text m (field bits a (6 * m)) ++ padding ∧
      ∀ c ∈ padding, c = 0x40#8 ∨ c = 0x20#8) ∧
    (∀ c, (text m (field bits a (6 * m))).getLast? = some c → c ≠ 0x40#8 ∧ c ≠ 0x20#8)

/-- 44_field_extractor.md R205 to R209: the classes of speed, longitude, latitude, course and heading. -/
def Obligations.AvailabilityClassesAreTheSpecs : Prop :=
  (∀ sog : Nat, sogClass sog = if sog = 1023 then .unavailable else .available) ∧
  (∀ lon : Int, (lonClass lon = .unavailable ↔ lon = 108600000) ∧
    (lonClass lon = .outOfRange ↔ lon ≠ 108600000 ∧ (108000000 < lon ∨ lon < -108000000)) ∧
    (lonClass lon = .available ↔ -108000000 ≤ lon ∧ lon ≤ 108000000)) ∧
  (∀ lat : Int, (latClass lat = .unavailable ↔ lat = 54600000) ∧
    (latClass lat = .outOfRange ↔ lat ≠ 54600000 ∧ (54000000 < lat ∨ lat < -54000000)) ∧
    (latClass lat = .available ↔ -54000000 ≤ lat ∧ lat ≤ 54000000)) ∧
  (∀ cog : Nat, (cogClass cog = .unavailable ↔ cog = 3600) ∧ (cogClass cog = .outOfRange ↔ 3600 < cog) ∧
    (cogClass cog = .available ↔ cog < 3600)) ∧
  (∀ heading : BitVec 9, (headingClass heading.toNat = .unavailable ↔ heading.toNat = 511) ∧
    (headingClass heading.toNat = .outOfRange ↔ 360 ≤ heading.toNat ∧ heading.toNat ≤ 510) ∧
    (headingClass heading.toNat = .available ↔ heading.toNat < 360))

/-- 44_field_extractor.md R210, R211: the classes of turn rate and second. -/
def Obligations.TurnRateAndSecondClassesAreTheSpecs : Prop :=
  (∀ rot : Int, (rotClass rot = .unavailable ↔ rot = -128) ∧ (rotClass rot = .fastRight ↔ rot = 127) ∧
    (rotClass rot = .fastLeft ↔ rot = -127) ∧
    (rotClass rot = .available ↔ rot ≠ -128 ∧ rot ≠ 127 ∧ rot ≠ -127)) ∧
  (∀ second : BitVec 6, (secondClass second.toNat = .available ↔ second.toNat ≤ 59) ∧
    (secondClass second.toNat = .unavailable ↔ second.toNat = 60) ∧
    (secondClass second.toNat = .manual ↔ second.toNat = 61) ∧
    (secondClass second.toNat = .deadReckoning ↔ second.toNat = 62) ∧
    (secondClass second.toNat = .inoperative ↔ second.toNat = 63))

/-- 30_encoding.md R80, 44_field_extractor.md R206, R207, R208: the classes in degrees: a longitude is unavailable exactly at 181 and
available exactly within 180 either way, a latitude at 91 and within 90, a course is available exactly below 360. -/
def Obligations.ClassesAgreeWithDegrees : Prop :=
  (∀ lon : Int, (lonClass lon = .unavailable ↔ degrees lon = 181) ∧
    (lonClass lon = .available ↔ -180 ≤ degrees lon ∧ degrees lon ≤ 180)) ∧
  (∀ lat : Int, (latClass lat = .unavailable ↔ degrees lat = 91) ∧
    (latClass lat = .available ↔ -90 ≤ degrees lat ∧ degrees lat ≤ 90)) ∧
  (∀ cog : Nat, (cogClass cog = .unavailable ↔ courseDegrees cog = 360) ∧
    (cogClass cog = .available ↔ courseDegrees cog < 360))

/-! ### Encoding -/

/-- 30_encoding.md R60, R61, R75 to R77, R85: decoding the encoding of a well-formed instruction gives it back, every operand with it.
A sentence is taken with the checksum of its canonical text (log entry 12). -/
def Obligations.DecodingAnEncodingGivesItBack : Prop :=
  ∀ (b : Build) (i : Instr), i.wellFormed b = true → i.canonical b = true → decode b (encode i) = .ok i

/-- 41_sentence_parser.md R130 to R138, 44_field_extractor.md R193: what decodes is well-formed. -/
def Obligations.DecodedInstructionsAreWellFormed : Prop :=
  ∀ (b : Build) (e : Encoding) (i : Instr), decode b e = .ok i →
    (∀ w, e = .operation w → w.operands.head? ≠ some (.nat 0)) → i.wellFormed b = true

/-- 41_sentence_parser.md R120, 44_field_extractor.md R204: the bytes of the source's example line, its framing and its message type. -/
def Obligations.ExampleLineDecodes : Prop :=
  parse Build.reference
      [0x21#8, 0x41#8, 0x49#8, 0x56#8, 0x44#8, 0x4D#8, 0x2C#8, 0x31#8, 0x2C#8, 0x31#8, 0x2C#8, 0x2C#8, 0x41#8, 0x2C#8,
       0x31#8, 0x33#8, 0x48#8, 0x4F#8, 0x49#8, 0x3A#8, 0x30#8, 0x50#8, 0x30#8, 0x30#8, 0x30#8, 0x30#8, 0x56#8, 0x4F#8,
       0x48#8, 0x4C#8, 0x43#8, 0x6E#8, 0x48#8, 0x51#8, 0x4B#8, 0x77#8, 0x76#8, 0x4C#8, 0x30#8, 0x35#8, 0x49#8, 0x70#8,
       0x2C#8, 0x30#8, 0x2A#8, 0x32#8, 0x33#8] =
    .ok { sid := .vdm
          fields :=
            { start := .bang, talker1 := 0x41#8, talker2 := 0x49#8, count := 1, number := 1, seqEmpty := true, seq := 0
              channel := some 0x41#8, fill := 0, checksum := 0x23#8
              payload :=
                [0x31#8, 0x33#8, 0x48#8, 0x4F#8, 0x49#8, 0x3A#8, 0x30#8, 0x50#8, 0x30#8, 0x30#8, 0x30#8, 0x30#8, 0x56#8,
                 0x4F#8, 0x48#8, 0x4C#8, 0x43#8, 0x6E#8, 0x48#8, 0x51#8, 0x4B#8, 0x77#8, 0x76#8, 0x4C#8, 0x30#8, 0x35#8,
                 0x49#8, 0x70#8] } } ∧
  decode Build.reference (.operation { code := 2#8, operands := [.tick 7#64] }) = .ok (.tick 7#64)

/-! ### Several engines -/

/-- 60_exceptions.md R259, R262: engines share no state: steps of two of them commute, and leave every other engine as it was. -/
def Obligations.EnginesDoNotInterfere : Prop :=
  ∀ (engines a b : List State) (i j : Nat), i ≠ j → Fleet.stepAt i engines = .next a → Fleet.stepAt j engines = .next b →
    (∃ c, Fleet.stepAt j a = .next c ∧ Fleet.stepAt i b = .next c) ∧ ∀ k, k ≠ i → a[k]? = engines[k]?

/-! ### Records, late fragments and interleaved messages -/

/-- 40_operations.md R101, 42_fragment_reassembler.md R163, R165: every Evicted record that a TICK or a FEED returns has code 3 and tells
of a group the table held before: its key, count, filled numbers and time; every Buffered record tells of the group the table holds
after: its key, count and filled numbers. -/
def Obligations.RecordsListTheFilledSlots : Prop :=
  ∀ (i : Instr) (line : Line) (now : Tick) (s t : State), i = .tick now ∨ i = .feed line now → exec i s = .next t →
    (∀ code why k count filled last, .evicted code why k count filled last ∈ t.out →
      code = 3 ∧ ∃ g, (k, g) ∈ s.groups ∧ g.count = count ∧ g.lastActivity = last ∧ listsFilled g filled) ∧
    ∀ n k count filled, .buffered n k count filled ∈ t.out →
      n = s.feedCount ∧ ∃ g, lookup k t.groups = some g ∧ g.count = count ∧ listsFilled g filled

/-- 42_fragment_reassembler.md R160, R164: a FEED runs the sentence its line spells in a state from which an aged group is gone and in
which another group is as it was. -/
def Obligations.AgedGroupIsGoneBeforeTheLine : Prop :=
  ∀ (line : Line) (now : Tick) (s : State) (k : Key) (g : Group) (i : Instr),
    tableWf s.groups = true → lookup k s.groups = some g →
    decode s.build (.sentence { lineNo := s.feedCount, raw := line, now := now } line) = .ok i →
    ∃ u, exec (.feed line now) s = exec i u ∧ u.feedCount = s.feedCount + 1#64 ∧
      u.cfgMaxGroups = s.cfgMaxGroups ∧ u.cfgIdleTicks = s.cfgIdleTicks ∧ u.build = s.build ∧ u.inbox = s.inbox ∧
      (∀ r ∈ u.out, isEvicted .idle r) ∧
      lookup k u.groups = if s.cfgIdleTicks.toNat < now.toNat - g.lastActivity.toNat then none else some g

/-- 42_fragment_reassembler.md R164, R166, R155: a late fragment for a group that has aged out starts a new group, which holds it alone,
and is reported as Buffered; it neither joins nor completes the old group. -/
def Obligations.LateFragmentStartsANewGroup : Prop :=
  ∀ (line : Line) (now : Tick) (s : State) (g : Group) (sid : Sid) (f : SentenceFields),
    tableWf s.groups = true → lookup (keyOf f) s.groups = some g →
    s.cfgIdleTicks.toNat < now.toNat - g.lastActivity.toNat → f.count ≠ 1 →
    decode s.build (.sentence { lineNo := s.feedCount, raw := line, now := now } line) =
      .ok (sentence sid { lineNo := s.feedCount, raw := line, now := now } f) →
    ∃ t, exec (.feed line now) s = .next t ∧
      lookup (keyOf f) t.groups =
        some { count := f.count
               slots := (List.replicate f.count none).set (f.number - 1) (some { payload := f.payload, fill := f.fill })
               lastActivity := now } ∧
      t.out.getLast? = some (.buffered s.feedCount (keyOf f) f.count [f.number])

/-- 42_fragment_reassembler.md R157, 40_operations.md R104, R110: the fragment that completes a message of several fragments runs the
message instruction that the joined payload spells, with the completing sentence's fields and the fill count of fragment N. -/
def Obligations.CompletedMessageRunsTheMessageItSpells : Prop :=
  ∀ (b : Build) (sid : Sid) (c : FeedContext) (f : SentenceFields) (s : State) (g : Group) (front : List Slot) (last : Slot)
    (bits : Bits) (i : Instr),
    2 ≤ f.count → 1 ≤ f.number → f.number ≤ f.count → lookup (keyOf f) s.groups = some g → g.count = f.count →
    (f.number = 1 → slotAt g 1 = none) → front.length + 1 = g.count →
    g.slots.set (f.number - 1) (some { payload := f.payload, fill := f.fill }) = (front ++ [last]).map some →
    armorDecode ((front ++ [last]).flatMap Slot.payload) last.fill = .ok bits →
    decode b (.message { lineNo := c.lineNo, info := metaOf { sid := sid, fields := f }, fillUsed := last.fill } bits) = .ok i →
    exec (sentence sid c f) s = exec i { s with groups := remove (keyOf f) s.groups }

/-- 42_fragment_reassembler.md R159: order-insensitivity of whole FEEDs, with any other FEEDs and TICKs before, between and after the
fragments: if the fragments that reach `Reassemble` under the key are those of one message, each once and in any order, and no record
reports an eviction of their group, then each FEED of a fragment but the last ends in a Buffered record, and that of the last one ends
in the decode of the complete message: the payloads in fragment-number order and the fill count of fragment N. -/
def Obligations.InterleavedFragmentsCompleteTheMessage : Prop :=
  ∀ (s : State) (key : Key) (n : Nat) (ops : List Instr) (ordered : List SentenceFields) (last : SentenceFields),
    tableWf s.groups = true → 2 ≤ n → lookup key s.groups = none →
    (∀ i ∈ ops, (∃ now, i = .tick now) ∨ ∃ line now, i = .feed line now) →
    ((ops.filterMap (fragmentOf s.build key)).map RawSentence.fields).Perm (ordered ++ [last]) →
    (∀ f ∈ ordered ++ [last], f.count = n) →
    (ordered ++ [last]).map SentenceFields.number = List.range' 1 n →
    (∀ r ∈ recordsOf ops s, evictsKey key r = false) →
    ∀ (before after : List Instr) (line : Line) (now : Tick) (r : RawSentence),
      ops = before ++ .feed line now :: after → fragmentOf s.build key (.feed line now) = some r →
      ∃ u, runAll before s = some u ∧
        (after.filterMap (fragmentOf s.build key) ≠ [] →
          ∃ t filled, exec (.feed line now) u = .next t ∧ t.out.getLast? = some (.buffered u.feedCount key n filled)) ∧
        (after.filterMap (fragmentOf s.build key) = [] →
          ∃ v, lookup key v.groups = none ∧
            exec (.feed line now) u =
              decodePayload { lineNo := u.feedCount, raw := line, now := now } (metaOf r)
                ((ordered ++ [last]).flatMap SentenceFields.payload) last.fill v)
end

