-- ==== Sys2Proof/Laws/Bits.lean ====
section
/-! SUPPORT. Bits: the value of a bit sequence, fields of a bitstream, and the armor's expansion. -/

namespace Sys2Proof

theorem natOfBits_foldl (acc : Nat) (bs : Bits) :
    bs.foldl (fun acc bit => 2 * acc + bit.toNat) acc = acc * 2 ^ bs.length + natOfBits bs := by
  unfold natOfBits
  induction bs generalizing acc with
  | nil => simp
  | cons b bs ih =>
    simp only [List.foldl_cons, List.length_cons]
    rw [ih, ih (2 * 0 + b.toNat), pow_succ]
    ring

theorem natOfBits_append (bs cs : Bits) : natOfBits (bs ++ cs) = natOfBits bs * 2 ^ cs.length + natOfBits cs := by
  rw [← natOfBits_foldl (natOfBits bs) cs]
  unfold natOfBits
  rw [List.foldl_append]

theorem natOfBits_cons (b : Bool) (bs : Bits) : natOfBits (b :: bs) = b.toNat * 2 ^ bs.length + natOfBits bs := by
  simpa [natOfBits] using natOfBits_append [b] bs

theorem natOfBits_lt (bs : Bits) : natOfBits bs < 2 ^ bs.length := by
  induction bs with
  | nil => simp [natOfBits]
  | cons b bs ih =>
    rw [natOfBits_cons, List.length_cons, pow_succ]
    cases b <;> simp <;> omega

theorem U_lt (bs : Bits) (a w : Nat) : U bs a w < 2 ^ w :=
  lt_of_lt_of_le (natOfBits_lt _) (Nat.pow_le_pow_right (by omega) (by simp))

/-- A field holds the unsigned value of its bits (R79). -/
theorem field_toNat (bs : Bits) (a w : Nat) : (field bs a w).toNat = U bs a w := by
  simp [field, Nat.mod_eq_of_lt (U_lt bs a w)]

theorem length_bitsOf {w : Nat} (v : BitVec w) : (bitsOf v).length = w := by simp [bitsOf]

theorem bitsOf_getElem? {w : Nat} (v : BitVec w) (i : Nat) (h : i < w) : (bitsOf v)[i]? = some (v.getMsbD i) := by
  simp [bitsOf, h]

/-- The value of the bits of a value (R11, R42). -/
theorem natOfBits_bitsOf {w : Nat} (v : BitVec w) : natOfBits (bitsOf v) = v.toNat := by
  have key : ∀ (n : Nat), n ≤ w → natOfBits ((List.range n).map (fun i => v.getMsbD i)) = v.toNat / 2 ^ (w - n) := by
    intro n
    induction n with
    | zero => intro _; simp [natOfBits, Nat.div_eq_of_lt v.isLt]
    | succ n ih =>
      intro hn
      rw [List.range_succ, List.map_append, natOfBits_append, ih (by omega)]
      have hw : w - n = (w - (n + 1)) + 1 := by omega
      have hb : (v.getMsbD n).toNat = v.toNat / 2 ^ (w - (n + 1)) % 2 := by
        rw [BitVec.getMsbD, BitVec.getLsbD, Nat.testBit_eq_decide_div_mod_eq]
        have : w - 1 - n = w - (n + 1) := by omega
        rw [this]
        have h2 : v.toNat / 2 ^ (w - (n + 1)) % 2 < 2 := Nat.mod_lt _ (by omega)
        simp only [show n < w by omega, decide_true, Bool.true_and]
        by_cases h1 : v.toNat / 2 ^ (w - (n + 1)) % 2 = 1
        · simp [h1]
        · have : v.toNat / 2 ^ (w - (n + 1)) % 2 = 0 := by omega
          simp [this]
      simp only [List.map_cons, List.map_nil, List.length_cons, List.length_nil, zero_add, pow_one, natOfBits_cons, pow_zero,
        mul_one, hb]
      rw [hw, pow_succ, ← Nat.div_div_eq_div_mul]
      simp [natOfBits]
      omega
  have := key w le_rfl
  simpa [bitsOf] using this

/-- Reading a field where a value's bits stand gives the value (R73). -/
theorem field_append {w : Nat} (pre post : Bits) (v : BitVec w) (a : Nat) (ha : a = pre.length) :
    field (pre ++ bitsOf v ++ post) a w = v := by
  subst ha
  apply BitVec.eq_of_toNat_eq
  rw [field_toNat, U, List.append_assoc, List.drop_left, List.take_left' (length_bitsOf v), natOfBits_bitsOf]

/-- A field that ends before later bits does not see them (R194). -/
theorem field_append_left (bs cs : Bits) (a w : Nat) (h : a + w ≤ bs.length) : field (bs ++ cs) a w = field bs a w := by
  simp only [field, U]
  rw [List.drop_append_of_le_length (by omega), List.take_append_of_le_length (by simp; omega)]

/-- A field that stands last. -/
theorem field_append_right {w : Nat} (bs : Bits) (v : BitVec w) (a : Nat) (h : a = bs.length) : field (bs ++ bitsOf v) a w = v := by
  simpa using field_append bs [] v a h

/-- A signed field holds the two's-complement value of its bits (R11, R79). -/
theorem field_toInt (bs : Bits) (a w : Nat) (hw : 1 ≤ w) (h : a + w ≤ bs.length) : (field bs a w).toInt = S bs a w := by
  obtain ⟨n, rfl⟩ : ∃ n, w = n + 1 := ⟨w - 1, by omega⟩
  have hd : (bs.drop a).take (n + 1) = bs[a] :: (bs.drop (a + 1)).take n := by
    rw [List.drop_eq_getElem_cons (by omega), List.take_succ_cons]
  have hu : U bs a (n + 1) = bs[a].toNat * 2 ^ n + natOfBits ((bs.drop (a + 1)).take n) := by
    rw [U, hd, natOfBits_cons]
    congr 3
    simp; omega
  have hlt : natOfBits ((bs.drop (a + 1)).take n) < 2 ^ n := by
    have := natOfBits_lt ((bs.drop (a + 1)).take n)
    rwa [List.length_take, List.length_drop, Nat.min_eq_left (by omega)] at this
  have hg : bs.getD a false = bs[a] := by simp [List.getD, List.getElem?_eq_getElem (show a < bs.length by omega)]
  rw [BitVec.toInt, field_toNat, S, hg]
  cases hb : bs[a] <;> simp only [hb, Bool.toNat_false, Bool.toNat_true] at hu
  · rw [if_pos (by rw [hu, pow_succ]; omega)]; simp
  · rw [if_neg (by rw [hu, pow_succ]; omega)]; simp

/-- Reading a six-bit part of a field read whole (R78, R221). -/
theorem U_part (bs : Bits) (a w i n : Nat) (hi : i + n ≤ w) (h : a + w ≤ bs.length) :
    U bs (a + i) n = U bs a w / 2 ^ (w - (i + n)) % 2 ^ n := by
  have hsplit : (bs.drop a).take w =
      (bs.drop a).take i ++ ((bs.drop (a + i)).take n ++ (bs.drop (a + i + n)).take (w - (i + n))) := by
    have h1 : w = i + (n + (w - (i + n))) := by omega
    conv_lhs => rw [h1]
    rw [List.take_add, List.take_add, List.drop_drop, List.drop_drop, Nat.add_assoc]
  have l3 : ((bs.drop (a + i + n)).take (w - (i + n))).length = w - (i + n) := by simp; omega
  have l2 : ((bs.drop (a + i)).take n).length = n := by simp; omega
  have hlt := natOfBits_lt ((bs.drop (a + i + n)).take (w - (i + n)))
  have hlt2 := natOfBits_lt ((bs.drop (a + i)).take n)
  rw [l3] at hlt
  rw [l2] at hlt2
  conv_rhs => rw [U, hsplit, natOfBits_append, natOfBits_append, List.length_append, l2, l3, pow_add]
  rw [U]
  set x := natOfBits ((bs.drop (a + i)).take n)
  set y := natOfBits ((bs.drop (a + i + n)).take (w - (i + n)))
  set z := natOfBits ((bs.drop a).take i)
  set p := 2 ^ (w - (i + n)) with hp
  have hp0 : 0 < p := by positivity
  have : z * (2 ^ n * p) + (x * p + y) = y + p * (z * 2 ^ n + x) := by ring
  rw [this, Nat.add_mul_div_left _ _ hp0, Nat.div_eq_of_lt hlt, zero_add, Nat.add_comm, Nat.add_mul_mod_self_right,
    Nat.mod_eq_of_lt hlt2]

/-- Sequences of equal length with equal values are equal. -/
theorem natOfBits_inj {bs cs : Bits} (hl : bs.length = cs.length) (h : natOfBits bs = natOfBits cs) : bs = cs := by
  induction bs generalizing cs with
  | nil => cases cs <;> simp_all
  | cons b bs ih =>
    cases cs with
    | nil => simp at hl
    | cons c cs =>
      rw [natOfBits_cons, natOfBits_cons] at h
      have hl' : bs.length = cs.length := by simpa using hl
      have h1 := natOfBits_lt bs
      have h2 := natOfBits_lt cs
      rw [← hl'] at h2 h
      have : b = c := by
        cases b <;> cases c <;> simp at h ⊢ <;> omega
      subst this
      rw [ih hl' (by omega)]

/-- The bits of a field are the bits of the stream (R73). -/
theorem bitsOf_field (bs : Bits) (w : Nat) (h : w ≤ bs.length) : bitsOf (field bs 0 w) = bs.take w := by
  apply natOfBits_inj
  · rw [length_bitsOf]; simp [h]
  · rw [natOfBits_bitsOf, field_toNat, U, List.drop_zero]

/-! ### Armor -/

theorem armorValue_armorByte (v : BitVec 6) : armorValue (armorByte v) = some v := by
  revert v; decide

theorem armorByte_of_armorValue {c : Byte} {v : BitVec 6} (h : armorValue c = some v) : armorByte v = c := by
  revert c v; decide

/-- A payload in the alphabet expands to the bits of its values, in order (R181). -/
theorem expandArmor_ok {payload : Line} {values : List (BitVec 6)} (h : payload.map armorValue = values.map some) (i : Nat) :
    expandArmor i payload = .ok (values.flatMap bitsOf) := by
  induction payload generalizing values i with
  | nil => cases values <;> simp_all [expandArmor]
  | cons c cs ih =>
    cases values with
    | nil => simp at h
    | cons v vs =>
      simp only [List.map_cons, List.cons.injEq] at h
      simp [expandArmor, h.1, ih h.2]

/-- The lowest index whose byte is outside the alphabet is reported (R183). -/
theorem expandArmor_error {before after : Line} {byte : Byte} (h : ∀ c ∈ before, (armorValue c).isSome = true)
    (hb : armorValue byte = none) (i : Nat) :
    expandArmor i (before ++ byte :: after) = .error (.invalidArmor (i + before.length) byte) := by
  induction before generalizing i with
  | nil => simp [expandArmor, hb]
  | cons c cs ih =>
    obtain ⟨v, hv⟩ := Option.isSome_iff_exists.1 (h c List.mem_cons_self)
    have := ih (fun c hc => h c (List.mem_cons_of_mem _ hc)) (i + 1)
    simp [expandArmor, hv, this]
    omega

theorem armorGroups_map (n : Nat) (bs : Bits) :
    (armorGroups n bs).map armorValue = ((List.range n).map (fun i => field (bs.drop (6 * i)) 0 6)).map some := by
  induction n generalizing bs with
  | zero => rfl
  | succ n ih =>
    rw [armorGroups, List.map_cons, armorValue_armorByte, ih, List.range_succ_eq_map]
    simp [Function.comp_def, Nat.mul_add, Nat.add_comm 6]

theorem flatMap_bitsOf_groups (n : Nat) (bs : Bits) (h : bs.length = 6 * n) :
    ((List.range n).map (fun i => field (bs.drop (6 * i)) 0 6)).flatMap bitsOf = bs := by
  induction n generalizing bs with
  | zero => simpa using (List.length_eq_zero_iff.1 (by simpa using h)).symm
  | succ n ih =>
    have := ih (bs.drop 6) (by simp; omega)
    rw [List.range_succ_eq_map, List.map_cons, List.flatMap_cons, Nat.mul_zero, List.drop_zero,
      bitsOf_field bs 6 (by omega)]
    simp only [List.map_map, Function.comp_def, List.drop_drop] at this ⊢
    have e : ∀ i, 6 * (i + 1) = 6 + 6 * i := by intro i; ring
    simp only [Nat.succ_eq_add_one, e]
    rw [this, List.take_append_drop]

end Sys2Proof
end

