-- ==== Sys2Proof/Laws/State.lean ====
section
/-! SUPPORT. The small lemmas of the state: one per field and update. -/

namespace Sys2Proof.Machine

@[simp] theorem emit_groups (r : Record) (s : State) : (emit r s).groups = s.groups := rfl
@[simp] theorem emit_feedCount (r : Record) (s : State) : (emit r s).feedCount = s.feedCount := rfl
@[simp] theorem emit_cfgMaxGroups (r : Record) (s : State) : (emit r s).cfgMaxGroups = s.cfgMaxGroups := rfl
@[simp] theorem emit_cfgIdleTicks (r : Record) (s : State) : (emit r s).cfgIdleTicks = s.cfgIdleTicks := rfl
@[simp] theorem emit_build (r : Record) (s : State) : (emit r s).build = s.build := rfl
@[simp] theorem emit_inbox (r : Record) (s : State) : (emit r s).inbox = s.inbox := rfl
@[simp] theorem emit_out (r : Record) (s : State) : (emit r s).out = s.out ++ [r] := rfl

@[simp] theorem beginOutput_groups (s : State) : (beginOutput s).groups = s.groups := rfl
@[simp] theorem beginOutput_feedCount (s : State) : (beginOutput s).feedCount = s.feedCount := rfl
@[simp] theorem beginOutput_cfgMaxGroups (s : State) : (beginOutput s).cfgMaxGroups = s.cfgMaxGroups := rfl
@[simp] theorem beginOutput_cfgIdleTicks (s : State) : (beginOutput s).cfgIdleTicks = s.cfgIdleTicks := rfl
@[simp] theorem beginOutput_build (s : State) : (beginOutput s).build = s.build := rfl
@[simp] theorem beginOutput_inbox (s : State) : (beginOutput s).inbox = s.inbox := rfl
@[simp] theorem beginOutput_out (s : State) : (beginOutput s).out = [] := rfl

@[simp] theorem countLine_groups (s : State) : (countLine s).groups = s.groups := rfl
@[simp] theorem countLine_feedCount (s : State) : (countLine s).feedCount = s.feedCount + 1#64 := rfl
@[simp] theorem countLine_cfgMaxGroups (s : State) : (countLine s).cfgMaxGroups = s.cfgMaxGroups := rfl
@[simp] theorem countLine_cfgIdleTicks (s : State) : (countLine s).cfgIdleTicks = s.cfgIdleTicks := rfl
@[simp] theorem countLine_build (s : State) : (countLine s).build = s.build := rfl
@[simp] theorem countLine_inbox (s : State) : (countLine s).inbox = s.inbox := rfl
@[simp] theorem countLine_out (s : State) : (countLine s).out = s.out := rfl

@[simp] theorem evictIdle_groups (now : Tick) (s : State) :
    (evictIdle now s).groups = s.groups.filter (fun e => !isIdle s.cfgIdleTicks now e.2) := rfl
@[simp] theorem evictIdle_feedCount (now : Tick) (s : State) : (evictIdle now s).feedCount = s.feedCount := rfl
@[simp] theorem evictIdle_cfgMaxGroups (now : Tick) (s : State) : (evictIdle now s).cfgMaxGroups = s.cfgMaxGroups := rfl
@[simp] theorem evictIdle_cfgIdleTicks (now : Tick) (s : State) : (evictIdle now s).cfgIdleTicks = s.cfgIdleTicks := rfl
@[simp] theorem evictIdle_build (now : Tick) (s : State) : (evictIdle now s).build = s.build := rfl
@[simp] theorem evictIdle_inbox (now : Tick) (s : State) : (evictIdle now s).inbox = s.inbox := rfl
@[simp] theorem evictIdle_out (now : Tick) (s : State) :
    (evictIdle now s).out =
      s.out ++ (evictSort (s.groups.filter (fun e => isIdle s.cfgIdleTicks now e.2))).map (evictedRecord .idle) := rfl

@[simp] theorem raiseError_eq_emit (n : Tick) (e : ErrorKind) (raw : Line) (s : State) :
    raiseError n e raw s = emit (errorRecord n e raw) s := rfl

@[simp] theorem beginFeed_groups (now : Tick) (s : State) :
    (beginFeed now s).groups = s.groups.filter (fun e => !isIdle s.cfgIdleTicks now e.2) := rfl
@[simp] theorem beginFeed_feedCount (now : Tick) (s : State) : (beginFeed now s).feedCount = s.feedCount + 1#64 := rfl
@[simp] theorem beginFeed_cfgMaxGroups (now : Tick) (s : State) : (beginFeed now s).cfgMaxGroups = s.cfgMaxGroups := rfl
@[simp] theorem beginFeed_cfgIdleTicks (now : Tick) (s : State) : (beginFeed now s).cfgIdleTicks = s.cfgIdleTicks := rfl
@[simp] theorem beginFeed_build (now : Tick) (s : State) : (beginFeed now s).build = s.build := rfl
@[simp] theorem beginFeed_inbox (now : Tick) (s : State) : (beginFeed now s).inbox = s.inbox := rfl

/-- A FEED begins as a TICK does, with a line number taken. -/
theorem beginFeed_eq (now : Tick) (s : State) :
    beginFeed now s = { evictIdle now (beginOutput s) with feedCount := s.feedCount + 1#64 } := rfl

@[simp] theorem writeSlot_count (f : SentenceFields) (now : Tick) (g : Group) : (writeSlot f now g).count = g.count := rfl
@[simp] theorem writeSlot_slots (f : SentenceFields) (now : Tick) (g : Group) :
    (writeSlot f now g).slots = g.slots.set (f.number - 1) (some (slotOf f)) := rfl
@[simp] theorem writeSlot_lastActivity (f : SentenceFields) (now : Tick) (g : Group) :
    (writeSlot f now g).lastActivity = now := rfl
@[simp] theorem newGroup_count (f : SentenceFields) (now : Tick) : (newGroup f now).count = f.count := rfl
@[simp] theorem newGroup_slots (f : SentenceFields) (now : Tick) :
    (newGroup f now).slots = List.replicate f.count none := rfl
@[simp] theorem newGroup_lastActivity (f : SentenceFields) (now : Tick) : (newGroup f now).lastActivity = now := rfl

end Sys2Proof.Machine
end

