-- ==== Sys2Proof/Laws/Table.lean ====
section
/-! SUPPORT. The group table: key order is a strict total order, the basic laws of lookup, insert and remove, and that every
table operation keeps the canonical form. -/

namespace Sys2Proof.Machine

/-! ### Key order -/

theorem channelBefore_irrefl (c : Option Byte) : channelBefore c c = false := by
  cases c <;> simp [channelBefore]

theorem channelBefore_trans {a b c : Option Byte} (h : channelBefore a b = true) (h' : channelBefore b c = true) :
    channelBefore a c = true := by
  cases a <;> cases b <;> cases c <;> simp_all [channelBefore]
  omega

theorem channelBefore_trichotomy (a b : Option Byte) :
    channelBefore a b = true ∨ a = b ∨ channelBefore b a = true := by
  cases a <;> cases b <;> simp [channelBefore]
  rename_i a b
  rcases Nat.lt_trichotomy a.toNat b.toNat with h | h | h
  · exact .inl h
  · exact .inr (.inl (BitVec.eq_of_toNat_eq h))
  · exact .inr (.inr h)

theorem channelBefore_asymm {a b : Option Byte} (h : channelBefore a b = true) : channelBefore b a = false := by
  by_contra hc
  have := channelBefore_trans h (Bool.not_eq_false _ ▸ hc)
  simp [channelBefore_irrefl] at this

theorem keyBefore_iff (k l : Key) :
    keyBefore k l = true ↔ channelBefore k.channel l.channel = true ∨ (k.channel = l.channel ∧ k.seq < l.seq) := by
  simp [keyBefore]

theorem keyBefore_irrefl (k : Key) : keyBefore k k = false := by
  simp [keyBefore, channelBefore_irrefl]

theorem keyBefore_trans {a b c : Key} (h : keyBefore a b = true) (h' : keyBefore b c = true) : keyBefore a c = true := by
  rw [keyBefore_iff] at *
  rcases h with h | ⟨e, h⟩ <;> rcases h' with h' | ⟨e', h'⟩
  · exact .inl (channelBefore_trans h h')
  · exact .inl (e' ▸ h)
  · exact .inl (e ▸ h')
  · exact .inr ⟨e.trans e', by omega⟩

theorem keyBefore_trichotomy (k l : Key) : keyBefore k l = true ∨ k = l ∨ keyBefore l k = true := by
  rw [keyBefore_iff, keyBefore_iff]
  rcases channelBefore_trichotomy k.channel l.channel with h | h | h
  · exact .inl (.inl h)
  · rcases Nat.lt_trichotomy k.seq l.seq with h' | h' | h'
    · exact .inl (.inr ⟨h, h'⟩)
    · exact .inr (.inl (by cases k; cases l; simp_all))
    · exact .inr (.inr (.inr ⟨h.symm, h'⟩))
  · exact .inr (.inr (.inl h))

theorem keyBefore_asymm {k l : Key} (h : keyBefore k l = true) : keyBefore l k = false := by
  by_contra hc
  have := keyBefore_trans h (Bool.not_eq_false _ ▸ hc)
  simp [keyBefore_irrefl] at this

theorem keyBefore_ne {k l : Key} (h : keyBefore k l = true) : k ≠ l := by
  rintro rfl; simp [keyBefore_irrefl] at h

/-! ### Membership -/

theorem mem_remove {k : Key} {e : Key × Group} {t : Table} : e ∈ remove k t ↔ e ∈ t ∧ e.1 ≠ k := by
  simp [remove]

theorem mem_insert {k : Key} {g : Group} {e : Key × Group} {t : Table} (h : e ∈ insert k g t) : e = (k, g) ∨ e ∈ t := by
  induction t with
  | nil => simpa [insert] using h
  | cons x t ih =>
    obtain ⟨k', g'⟩ := x
    simp only [insert] at h
    split at h
    · rcases List.mem_cons.1 h with h | h
      · exact .inl h
      · exact .inr (List.mem_cons_of_mem _ h)
    · split at h
      · rcases List.mem_cons.1 h with h | h
        · exact .inl h
        · exact .inr h
      · rcases List.mem_cons.1 h with h | h
        · exact .inr (h ▸ List.mem_cons_self)
        · exact (ih h).imp_right (List.mem_cons_of_mem _)

theorem mem_of_lookup {k : Key} {g : Group} {t : Table} (h : lookup k t = some g) : (k, g) ∈ t := by
  induction t with
  | nil => simp [lookup] at h
  | cons x t ih =>
    obtain ⟨k', g'⟩ := x
    simp only [lookup] at h
    split at h
    · next e => simp_all
    · exact List.mem_cons_of_mem _ (ih h)

theorem lookup_eq_none_iff {k : Key} {t : Table} : lookup k t = none ↔ ∀ e ∈ t, e.1 ≠ k := by
  induction t with
  | nil => simp [lookup]
  | cons x t ih =>
    obtain ⟨k', g'⟩ := x
    by_cases e : k' = k <;> simp [lookup, e, ih]

/-! ### Lookup after an update -/

@[simp] theorem lookup_insert_self (k : Key) (g : Group) (t : Table) : lookup k (insert k g t) = some g := by
  induction t with
  | nil => simp [insert, lookup]
  | cons x t ih =>
    obtain ⟨k', g'⟩ := x
    simp only [insert]
    split
    · simp [lookup]
    · split
      · simp [lookup]
      · simp [lookup, *]

theorem lookup_insert_of_ne {k l : Key} (h : l ≠ k) (g : Group) (t : Table) : lookup l (insert k g t) = lookup l t := by
  induction t with
  | nil => simp [insert, lookup, h.symm]
  | cons x t ih =>
    obtain ⟨k', g'⟩ := x
    simp only [insert]
    split
    · next e => subst e; simp [lookup, h.symm]
    · split
      · simp [lookup, h.symm]
      · simp [lookup, ih]

@[simp] theorem lookup_remove_self (k : Key) (t : Table) : lookup k (remove k t) = none := by
  rw [lookup_eq_none_iff]
  intro e he
  exact (mem_remove.1 he).2

theorem lookup_remove_of_ne {k l : Key} (h : l ≠ k) (t : Table) : lookup l (remove k t) = lookup l t := by
  induction t with
  | nil => rfl
  | cons x t ih =>
    obtain ⟨k', g'⟩ := x
    by_cases e : k' = k
    · have : remove k ((k', g') :: t) = remove k t := by simp [remove, e]
      rw [this, ih]
      simp [lookup, e, h.symm]
    · have : remove k ((k', g') :: t) = (k', g') :: remove k t := by simp [remove, e]
      rw [this]
      simp [lookup, ih]

/-! ### Lengths -/

theorem length_remove_le (k : Key) (t : Table) : (remove k t).length ≤ t.length := List.length_filter_le ..

theorem length_remove_lt {k : Key} {e : Key × Group} {t : Table} (h : e ∈ t) (hk : e.1 = k) :
    (remove k t).length < t.length := by
  refine lt_of_le_of_ne (length_remove_le k t) (fun hl => ?_)
  have := List.filter_eq_self.1 (List.filter_sublist.eq_of_length hl) e h
  simp [hk] at this

theorem length_insert_le (k : Key) (g : Group) (t : Table) : (insert k g t).length ≤ t.length + 1 := by
  induction t with
  | nil => simp [insert]
  | cons x t ih =>
    obtain ⟨k', g'⟩ := x
    simp only [insert]
    split
    · simp
    · split
      · simp
      · simpa using ih

theorem length_insert_of_lookup {k : Key} {g g' : Group} {t : Table} (h : tableWf t = true) (hl : lookup k t = some g') :
    (insert k g t).length = t.length := by
  induction t with
  | nil => simp [lookup] at hl
  | cons x t ih =>
    obtain ⟨k', g''⟩ := x
    simp only [insert]
    split
    · rfl
    · next hk =>
      simp only [lookup, hk, if_false] at hl
      simp only [tableWf, Bool.and_eq_true, List.all_eq_true] at h
      split
      · next hb =>
        have := keyBefore_asymm hb
        simp [h.1 _ (mem_of_lookup hl)] at this
      · simp [ih h.2 hl]

/-! ### The canonical form -/

theorem tableWf_cons {e : Key × Group} {t : Table} :
    tableWf (e :: t) = true ↔ (∀ e' ∈ t, keyBefore e.1 e'.1 = true) ∧ tableWf t = true := by
  simp [tableWf]

theorem tableWf_iff_pairwise {t : Table} : tableWf t = true ↔ t.Pairwise (fun e e' => keyBefore e.1 e'.1 = true) := by
  induction t with
  | nil => simp [tableWf]
  | cons e t ih => rw [tableWf_cons, List.pairwise_cons, ih]

theorem tableWf_filter {t : Table} (p : Key × Group → Bool) (h : tableWf t = true) : tableWf (t.filter p) = true := by
  rw [tableWf_iff_pairwise] at *
  exact h.filter p

theorem tableWf_remove {t : Table} (k : Key) (h : tableWf t = true) : tableWf (remove k t) = true := tableWf_filter _ h

theorem tableWf_insert {t : Table} (k : Key) (g : Group) (h : tableWf t = true) : tableWf (insert k g t) = true := by
  induction t with
  | nil => simp [insert, tableWf]
  | cons x t ih =>
    obtain ⟨k', g'⟩ := x
    obtain ⟨hx, ht⟩ := tableWf_cons.1 h
    simp only [insert]
    split
    · next e => subst e; exact tableWf_cons.2 ⟨hx, ht⟩
    · next hk =>
      split
      · next hb =>
        refine tableWf_cons.2 ⟨fun e he => ?_, h⟩
        rcases List.mem_cons.1 he with rfl | he
        · exact hb
        · exact keyBefore_trans hb (hx e he)
      · next hb =>
        refine tableWf_cons.2 ⟨fun e he => ?_, ih ht⟩
        rcases mem_insert he with rfl | he
        · rcases keyBefore_trichotomy k' k with h' | h' | h'
          · exact h'
          · exact absurd h' hk
          · exact absurd h' hb
        · exact hx e he

/-- In a canonical table a key has one entry, so every entry is the one that lookup finds. -/
theorem lookup_of_mem {k : Key} {g : Group} {t : Table} (h : tableWf t = true) (hm : (k, g) ∈ t) : lookup k t = some g := by
  induction t with
  | nil => simp at hm
  | cons x t ih =>
    obtain ⟨k', g'⟩ := x
    obtain ⟨hx, ht⟩ := tableWf_cons.1 h
    rcases List.mem_cons.1 hm with e | hm
    · simp_all [lookup]
    · have := keyBefore_ne (hx _ hm)
      simp only at this
      simp [lookup, this, ih ht hm]

theorem lookup_filter {k : Key} {g : Group} {t : Table} (p : Key × Group → Bool) (h : tableWf t = true)
    (hl : lookup k t = some g) : lookup k (t.filter p) = if p (k, g) then some g else none := by
  split
  · next hp => exact lookup_of_mem (tableWf_filter p h) (List.mem_filter.2 ⟨mem_of_lookup hl, hp⟩)
  · next hp =>
    rw [lookup_eq_none_iff]
    rintro ⟨k', g'⟩ he rfl
    have := lookup_of_mem h (List.mem_filter.1 he).1
    simp only at hl
    rw [hl] at this
    cases this
    exact hp (List.mem_filter.1 he).2

theorem lookup_filter_keys (k : Key) (ks : List Key) (t : Table) :
    lookup k (t.filter (fun e => !decide (e.1 ∈ ks))) = if k ∈ ks then none else lookup k t := by
  induction t with
  | nil => simp [lookup]
  | cons e t ih =>
    obtain ⟨k', g'⟩ := e
    by_cases hin : k' ∈ ks
    · by_cases hk : k' = k
      · subst hk; simpa [hin] using ih
      · simpa [List.filter_cons, hin, lookup, hk] using ih
    · by_cases hk : k' = k
      · subst hk; simp [hin, lookup]
      · simpa [List.filter_cons, hin, lookup, hk] using ih

theorem lookup_filter_none {k : Key} {t : Table} (p : Key × Group → Bool) (hl : lookup k t = none) :
    lookup k (t.filter p) = none := by
  rw [lookup_eq_none_iff] at *
  exact fun e he => hl e (List.mem_filter.1 he).1

end Sys2Proof.Machine
end

