-- ==== Sys2Proof/Laws/Evict.lean ====
section
/-! SUPPORT. Eviction: the order of eviction is total and sorted, and what capacity eviction can do. -/

namespace Sys2Proof.Machine

/-- Eviction order as a proposition (R161). -/
theorem evictLe_iff (e f : Key × Group) :
    evictLe e f = true ↔ e.2.lastActivity.toNat < f.2.lastActivity.toNat ∨
      (e.2.lastActivity = f.2.lastActivity ∧ keyBefore f.1 e.1 = false) := by
  simp [evictLe, ← BitVec.toNat_inj]

theorem evictLe_total (e f : Key × Group) : evictLe e f = true ∨ evictLe f e = true := by
  rw [evictLe_iff, evictLe_iff]
  rcases Nat.lt_trichotomy e.2.lastActivity.toNat f.2.lastActivity.toNat with h | h | h
  · exact .inl (.inl h)
  · have he := BitVec.eq_of_toNat_eq h
    cases hk : keyBefore f.1 e.1 with
    | false => exact .inl (.inr ⟨he, rfl⟩)
    | true => exact .inr (.inr ⟨he.symm, keyBefore_asymm hk⟩)
  · exact .inr (.inl h)

theorem evictLe_trans {a b c : Key × Group} (h : evictLe a b = true) (h' : evictLe b c = true) : evictLe a c = true := by
  rw [evictLe_iff] at *
  rcases h with h | ⟨e, h⟩ <;> rcases h' with h' | ⟨e', h'⟩
  · exact .inl (by omega)
  · exact .inl (e' ▸ h)
  · exact .inl (e ▸ h')
  · refine .inr ⟨e.trans e', ?_⟩
    by_contra hc
    have hc : keyBefore c.1 a.1 = true := by simpa using hc
    rcases keyBefore_trichotomy b.1 a.1 with hk | hk | hk
    · simp [hk] at h
    · rw [hk, hc] at h'; simp at h'
    · rw [keyBefore_trans hc hk] at h'; simp at h'

/-- Sorting for eviction keeps the entries. -/
theorem evictSort_perm (t : Table) : (evictSort t).Perm t := List.perm_insertionSort ..

theorem mem_evictSort {t : Table} {e : Key × Group} : e ∈ evictSort t ↔ e ∈ t := (evictSort_perm t).mem_iff

/-- Sorting for eviction sorts. -/
theorem evictSort_pairwise (t : Table) : (evictSort t).Pairwise (fun e f => evictLe e f = true) := by
  have : Std.Total (fun e f : Key × Group => evictLe e f = true) := ⟨evictLe_total⟩
  have : IsTrans (Key × Group) (fun e f => evictLe e f = true) := ⟨fun _ _ _ => evictLe_trans⟩
  exact List.pairwise_insertionSort _ t

/-- The head of the sorted table comes before every entry. -/
theorem evictSort_head_le {t rest : Table} {e : Key × Group} (h : evictSort t = e :: rest) :
    e ∈ t ∧ ∀ e' ∈ t, evictLe e e' = true := by
  refine ⟨mem_evictSort.1 (h ▸ List.mem_cons_self), fun e' he' => ?_⟩
  have hp := evictSort_pairwise t
  rw [h, List.pairwise_cons] at hp
  have he' : e' ∈ evictSort t := mem_evictSort.2 he'
  rw [h] at he'
  rcases List.mem_cons.1 he' with rfl | he'
  · rcases evictLe_total e' e' with h' | h' <;> exact h'
  · exact hp.1 e' he'

/-- Capacity eviction of a table with entries: the first in eviction order goes, with one record (R162). -/
theorem evictForCapacity_spec (s : State) (h : s.groups ≠ []) :
    ∃ e ∈ s.groups, (∀ e' ∈ s.groups, evictLe e e' = true) ∧
      evictForCapacity s = emit (evictedRecord .capacity e) { s with groups := remove e.1 s.groups } := by
  unfold evictForCapacity
  cases hs : evictSort s.groups with
  | nil => exact absurd (hs ▸ evictSort_perm s.groups).nil_eq.symm h
  | cons e rest => exact ⟨e, (evictSort_head_le hs).1, (evictSort_head_le hs).2, rfl⟩

/-- Making room does nothing, or it evicts one group for capacity (R155, R162). -/
theorem makeRoom_cases (s : State) :
    makeRoom s = s ∨
      (s.cfgMaxGroups ≤ s.groups.length ∧ ∃ e ∈ s.groups, (∀ e' ∈ s.groups, evictLe e e' = true) ∧
        makeRoom s = emit (evictedRecord .capacity e) { s with groups := remove e.1 s.groups }) := by
  unfold makeRoom
  split
  · next h =>
    by_cases hn : s.groups = []
    · left; simp [evictForCapacity, hn, evictSort]
    · exact .inr ⟨h, evictForCapacity_spec s hn⟩
  · exact .inl rfl

/-- A table within its capacity has room for one group more after making room (R162). -/
theorem makeRoom_length {s : State} (h : s.groups.length ≤ s.cfgMaxGroups) (h1 : 1 ≤ s.cfgMaxGroups) :
    (makeRoom s).groups.length < s.cfgMaxGroups := by
  unfold makeRoom
  split
  · next hle =>
    have hn : s.groups ≠ [] := by intro hn; simp [hn] at hle; omega
    obtain ⟨e, he, -, heq⟩ := evictForCapacity_spec s hn
    rw [heq]
    exact lt_of_lt_of_le (length_remove_lt he rfl) h
  · next hlt => omega

theorem evictedRecord_eq (why : EvictReason) (e : Key × Group) :
    evictedRecord why e = .evicted 3 why e.1 e.2.count (filledNumbers e.2) e.2.lastActivity := rfl

/-- The idle age is the saturating difference (R160). -/
theorem idleAge_eq (now : Tick) (g : Group) : idleAge now g = now.toNat - g.lastActivity.toNat := by
  unfold idleAge; split <;> omega

theorem isIdle_eq (threshold now : Tick) (g : Group) :
    isIdle threshold now g = decide (threshold.toNat < now.toNat - g.lastActivity.toNat) := by
  rw [isIdle, idleAge_eq]

end Sys2Proof.Machine
end

