-- ==== Sys2Proof/Laws/PerInstr.lean ====
section
/-! SUPPORT. The family TableMatch: the encoding of every instruction carries the fixed bits of its row of spec/opcode_table.json. -/

namespace Sys2Proof.Laws.TableMatch

open Sys2Proof

/-- The bits of an encoding that the opcode table fixes: the op code (R60), the last three bytes of the address field (R130), the
type field (R74). -/
def fixedBits : Encoding → Nat
  | .operation w => w.code.toNat
  | .sentence _ line => ((line.drop 3).take 3).foldl (fun acc c => 256 * acc + c.toNat) 0
  | .message _ bits => U bits 0 6

/-- The `match` column of the opcode table. -/
def rowMatch : Instr → Nat
  | .reset _ _  => 0x00
  | .feed _ _   => 0x01
  | .tick _     => 0x02
  | .vdm _ _    => 0x56444D
  | .vdo _ _    => 0x56444F
  | .msg1 _ _ _ => 1
  | .msg2 _ _ _ => 2
  | .msg3 _ _ _ => 3
  | .msg4 _ _ _ => 4
  | .msg5 _ _ _ => 5

/-- The instruction's encoding has its row's fixed bits. -/
def Statement (i : Instr) : Prop := fixedBits (encode i) = rowMatch i

/-- The first six bits of a message's encoding are its type. -/
theorem U_type (n : Nat) (t : BitVec 6) (rest : Bits) : U (padBits n (bitsOf t ++ rest)) 0 6 = t.toNat := by
  have h := field_append [] (rest ++ List.replicate (n - (bitsOf t ++ rest).length) false) t 0 rfl
  have h' := congrArg BitVec.toNat h
  rw [field_toNat] at h'
  simpa [padBits, List.append_assoc] using h'

theorem reset (m : Option Nat) (t : Option Tick) : Statement (.reset m t) := rfl
theorem feed (line : Line) (now : Tick) : Statement (.feed line now) := rfl
theorem tick (now : Tick) : Statement (.tick now) := rfl
theorem vdm (c : FeedContext) (f : SentenceFields) : Statement (.vdm c f) := rfl
theorem vdo (c : FeedContext) (f : SentenceFields) : Statement (.vdo c f) := rfl

theorem msg1 (c : MessageContext) (n : Nat) (f : PositionFields) : Statement (.msg1 c n f) := by
  simpa [Statement, fixedBits, rowMatch, encode, positionBits, List.append_assoc] using U_type n 1#6 _

theorem msg2 (c : MessageContext) (n : Nat) (f : PositionFields) : Statement (.msg2 c n f) := by
  simpa [Statement, fixedBits, rowMatch, encode, positionBits, List.append_assoc] using U_type n 2#6 _

theorem msg3 (c : MessageContext) (n : Nat) (f : PositionFields) : Statement (.msg3 c n f) := by
  simpa [Statement, fixedBits, rowMatch, encode, positionBits, List.append_assoc] using U_type n 3#6 _

theorem msg4 (c : MessageContext) (n : Nat) (f : BaseStationFields) : Statement (.msg4 c n f) := by
  simpa [Statement, fixedBits, rowMatch, encode, baseStationBits, List.append_assoc] using U_type n 4#6 _

theorem msg5 (c : MessageContext) (n : Nat) (f : StaticFields) : Statement (.msg5 c n f) := by
  simpa [Statement, fixedBits, rowMatch, encode, staticBits, List.append_assoc] using U_type n 5#6 _

end Sys2Proof.Laws.TableMatch
end

