-- ==== Sys2Proof/Laws/Slots.lean ====
section
/-! SUPPORT. Slots of a group: the set of filled numbers, and reading a slot after a write. -/

namespace Sys2Proof.Machine

theorem mem_filledFrom {ss : List (Option Slot)} {i j : Nat} :
    j ∈ filledFrom i ss ↔ i ≤ j ∧ ((ss[j - i]?).join).isSome = true := by
  induction ss generalizing i with
  | nil => simp [filledFrom]
  | cons x ss ih =>
    cases x with
    | none =>
      simp only [filledFrom, ih]
      rcases Nat.lt_trichotomy i j with h | h | h
      · obtain ⟨d, rfl⟩ : ∃ d, j = i + 1 + d := ⟨j - i - 1, by omega⟩
        have e1 : i + 1 + d - i = d + 1 := by omega
        have e2 : i + 1 + d - (i + 1) = d := by omega
        simp only [e1, e2, List.getElem?_cons_succ]
        constructor <;> rintro ⟨-, h⟩ <;> exact ⟨by omega, h⟩
      · subst h; simp
      · constructor
        · rintro ⟨h', -⟩; omega
        · rintro ⟨h', -⟩; omega
    | some y =>
      simp only [filledFrom, List.mem_cons, ih]
      rcases Nat.lt_trichotomy i j with h | h | h
      · obtain ⟨d, rfl⟩ : ∃ d, j = i + 1 + d := ⟨j - i - 1, by omega⟩
        have e1 : i + 1 + d - i = d + 1 := by omega
        have e2 : i + 1 + d - (i + 1) = d := by omega
        simp only [e1, e2, List.getElem?_cons_succ]
        constructor
        · rintro (h | ⟨-, h⟩)
          · omega
          · exact ⟨by omega, h⟩
        · rintro ⟨-, h⟩; exact .inr ⟨by omega, h⟩
      · subst h; simp
      · constructor
        · rintro (h' | ⟨h', -⟩) <;> omega
        · rintro ⟨h', -⟩; omega

theorem filledFrom_ge {ss : List (Option Slot)} {i j : Nat} (h : j ∈ filledFrom i ss) : i ≤ j := (mem_filledFrom.1 h).1

theorem filledFrom_pairwise (i : Nat) (ss : List (Option Slot)) : (filledFrom i ss).Pairwise (· < ·) := by
  induction ss generalizing i with
  | nil => simp [filledFrom]
  | cons x ss ih =>
    cases x with
    | none => exact ih (i + 1)
    | some y => exact List.pairwise_cons.2 ⟨fun j hj => filledFrom_ge hj, ih (i + 1)⟩

/-- The filled numbers are those of the filled slots (R165). -/
theorem mem_filledNumbers {g : Group} {j : Nat} : j ∈ filledNumbers g ↔ (slotAt g j).isSome = true := by
  rw [filledNumbers, mem_filledFrom]
  cases j with
  | zero => simp [slotAt]
  | succ j => simp [slotAt]

theorem filledNumbers_pairwise (g : Group) : (filledNumbers g).Pairwise (· < ·) := filledFrom_pairwise 1 g.slots

/-- Strictly rising lists with the same elements are equal. -/
theorem eq_of_pairwise_lt {l l' : List Nat} (h : l.Pairwise (· < ·)) (h' : l'.Pairwise (· < ·))
    (hm : ∀ j, j ∈ l ↔ j ∈ l') : l = l' :=
  List.Perm.eq_of_pairwise (fun a b _ _ h1 h2 => absurd h1 (by omega)) h h'
    ((List.perm_ext_iff_of_nodup (h.imp (fun h => Nat.ne_of_lt h)) (h'.imp (fun h => Nat.ne_of_lt h))).2 hm)

/-- Reading a slot after a write (R156). -/
theorem slotAt_writeSlot {f : SentenceFields} {now : Tick} {g : Group} {j : Nat} (h1 : 1 ≤ f.number)
    (h2 : f.number ≤ g.slots.length) :
    slotAt (writeSlot f now g) j = if j = f.number then some (slotOf f) else slotAt g j := by
  cases j with
  | zero => simp [slotAt]; omega
  | succ j =>
    simp only [slotAt, writeSlot_slots, List.getElem?_set]
    by_cases h : j + 1 = f.number
    · simp [h, show f.number - 1 = j by omega, show j < g.slots.length by omega]
    · simp [h, show ¬ (f.number - 1 = j) by omega]

theorem slotAt_newGroup (f : SentenceFields) (now : Tick) (j : Nat) : slotAt (newGroup f now) j = none := by
  cases j with
  | zero => rfl
  | succ j => simp [slotAt, List.getElem?_replicate]; split <;> rfl

/-- A group is complete when every slot of it is filled (R157). -/
theorem allFilled_iff {g : Group} : allFilled g = true ↔ ∀ j, 1 ≤ j → j ≤ g.slots.length → (slotAt g j).isSome = true := by
  rw [allFilled, List.all_eq_true]
  constructor
  · intro h j h1 h2
    obtain ⟨i, rfl⟩ : ∃ i, j = i + 1 := ⟨j - 1, by omega⟩
    simp only [slotAt, List.getElem?_eq_getElem (show i < g.slots.length by omega)]
    exact h _ (List.getElem_mem _)
  · intro h x hx
    obtain ⟨i, hi, rfl⟩ := List.mem_iff_getElem.1 hx
    have := h (i + 1) (by omega) (by omega)
    simpa [slotAt, List.getElem?_eq_getElem hi] using this

end Sys2Proof.Machine
end

