-- ==== Sys2Proof/Laws/Stages.lean ====
section
/-! SUPPORT. What each stage of a FEED can do, said once: the extraction, the decode of a payload, the reassembly of a fragment, the
sentence-level stage, the operations, and the step. -/

namespace Sys2Proof.Machine

/-! ### Extraction and decode -/

/-- Running a message emits one Decoded record (R104). -/
theorem runMessage_eq (c : MessageContext) (bitlen : Nat) (m : Message) (s : State) :
    ∃ d, runMessage c bitlen m s = .next (emit (.decoded c.lineNo c.info c.fillUsed bitlen d) s) := by
  cases m <;> exact ⟨_, rfl⟩

/-- Running a message is running its instruction (R190). -/
theorem runMessage_eq_exec (c : MessageContext) (bitlen : Nat) (m : Message) (s : State) :
    runMessage c bitlen m s = exec (m.toInstr c bitlen) s := by
  cases m <;> rfl

/-- A payload's decode emits one record of the line: an Error of the armor decoder or the extractor, or a Decoded (R110). The record
does not depend on the state. -/
theorem decodePayload_eq (c : FeedContext) (info : Meta) (payload : Line) (fill : Fin 6) :
    ∃ r, (∀ s, decodePayload c info payload fill s = .next (emit r s)) ∧
      ((∃ e, r = errorRecord c.lineNo e c.raw) ∨ ∃ bitlen d, r = .decoded c.lineNo info fill bitlen d) := by
  cases ha : armorDecode payload fill with
  | error e => exact ⟨_, fun s => by simp only [decodePayload, ha]; rfl, .inl ⟨e, rfl⟩⟩
  | ok bits =>
    cases hm : decodeMessage bits with
    | error e => exact ⟨_, fun s => by simp only [decodePayload, ha, hm]; rfl, .inl ⟨e, rfl⟩⟩
    | ok m => cases m <;> exact ⟨_, fun s => by simp only [decodePayload, ha, hm]; rfl, .inr ⟨_, _, rfl⟩⟩

theorem decodePayload_of_armor_error {c : FeedContext} {info : Meta} {payload : Line} {fill : Fin 6} {e : ErrorKind}
    (h : armorDecode payload fill = .error e) (s : State) :
    decodePayload c info payload fill s = .next (emit (errorRecord c.lineNo e c.raw) s) := by
  simp [decodePayload, h]

theorem decodePayload_of_message_error {c : FeedContext} {info : Meta} {payload : Line} {fill : Fin 6} {bits : Bits}
    {e : ErrorKind} (h : armorDecode payload fill = .ok bits) (h' : decodeMessage bits = .error e) (s : State) :
    decodePayload c info payload fill s = .next (emit (errorRecord c.lineNo e c.raw) s) := by
  simp [decodePayload, h, h']

theorem decodePayload_of_message {c : FeedContext} {info : Meta} {payload : Line} {fill : Fin 6} {bits : Bits} {m : Message}
    (h : armorDecode payload fill = .ok bits) (h' : decodeMessage bits = .ok m) (s : State) :
    decodePayload c info payload fill s =
      exec (m.toInstr { lineNo := c.lineNo, info := info, fillUsed := fill } bits.length) s := by
  simp [decodePayload, h, h', runMessage_eq_exec]

/-! ### Reassembly -/

/-- A fragment of a pending group that it does not supersede is written into that group (R156). -/
theorem reassemble_joined {f : SentenceFields} {s : State} {g : Group} (now : Tick)
    (hl : lookup (keyOf f) s.groups = some g) (hs : supersedes f g = false) :
    reassemble f now s = closeGroup (keyOf f) (writeSlot f now g) s := by
  simp [reassemble, openGroup, dropSuperseded, hl, hs]

/-- A fragment without a group is written into a new one, for which room is made (R155). -/
theorem reassemble_created {f : SentenceFields} {s : State} (now : Tick) (hl : lookup (keyOf f) s.groups = none) :
    reassemble f now s = closeGroup (keyOf f) (writeSlot f now (newGroup f now)) (makeRoom s) := by
  simp [reassemble, openGroup, dropSuperseded, hl]

/-- A fragment that supersedes its group is written into a new one, after the old one is removed (R153, R154). -/
theorem reassemble_superseded {f : SentenceFields} {s : State} {g : Group} (now : Tick)
    (hl : lookup (keyOf f) s.groups = some g) (hs : supersedes f g = true) :
    reassemble f now s =
      closeGroup (keyOf f) (writeSlot f now (newGroup f now))
        (makeRoom { s with groups := remove (keyOf f) s.groups }) := by
  simp [reassemble, openGroup, dropSuperseded, hl, hs]

theorem supersedes_eq_false {f : SentenceFields} {g : Group} :
    supersedes f g = false ↔ g.count = f.count ∧ (f.number = 1 → slotAt g 1 = none) := by
  simp [supersedes]

theorem closeGroup_complete {key : Key} {g : Group} (h : allFilled g = true) (s : State) :
    closeGroup key g s = ({ s with groups := remove key s.groups }, .complete (combinedPayload g) (lastFill g)) := by
  simp [closeGroup, h]

theorem closeGroup_pending {key : Key} {g : Group} (h : allFilled g = false) (s : State) :
    closeGroup key g s = ({ s with groups := insert key g s.groups }, .pending key (filledNumbers g)) := by
  simp [closeGroup, h]

/-- After a superseded group is removed the table of a state within its capacity is not full (R155). -/
theorem makeRoom_remove {s : State} {k : Key} {g : Group} (hl : lookup k s.groups = some g)
    (hc : s.groups.length ≤ s.cfgMaxGroups) :
    makeRoom { s with groups := remove k s.groups } = { s with groups := remove k s.groups } := by
  have : (remove k s.groups).length < s.groups.length := length_remove_lt (mem_of_lookup hl) rfl
  simp only [makeRoom]
  rw [if_neg (by omega)]

/-- A new group of two or more slots with one fragment in it is not complete. -/
theorem allFilled_writeSlot_newGroup {f : SentenceFields} (now : Tick) (h2 : 2 ≤ f.count) :
    allFilled (writeSlot f now (newGroup f now)) = false := by
  rw [Bool.eq_false_iff]
  intro h
  simp only [allFilled, List.all_eq_true, writeSlot_slots, newGroup_slots] at h
  by_cases hn : f.number - 1 = 0
  · have : (none : Option Slot) ∈ (List.replicate f.count none).set (f.number - 1) (some (slotOf f)) :=
      List.mem_of_getElem? (i := 1) (by rw [List.getElem?_set, hn]; simp [List.getElem?_replicate]; omega)
    simpa using h _ this
  · have : (none : Option Slot) ∈ (List.replicate f.count none).set (f.number - 1) (some (slotOf f)) :=
      List.mem_of_getElem? (i := 0) (by rw [List.getElem?_set, if_neg hn]; simp [List.getElem?_replicate]; omega)
    simpa using h _ this

/-- The one fragment number a new group has filled (R165). -/
theorem filledNumbers_writeSlot_newGroup {f : SentenceFields} (now : Tick) (h1 : 1 ≤ f.number) (h2 : f.number ≤ f.count) :
    filledNumbers (writeSlot f now (newGroup f now)) = [f.number] := by
  refine eq_of_pairwise_lt (filledNumbers_pairwise _) (by simp) (fun j => ?_)
  rw [mem_filledNumbers, slotAt_writeSlot h1 (by simpa using h2)]
  by_cases h : j = f.number <;> simp [h, slotAt_newGroup]

/-- The state a fragment finds its group in, and the group (R153 to R155): the pending group, with the state unchanged; or a new group,
with the old one of its key removed if there was one, and room made. -/
theorem openGroup_cases (f : SentenceFields) (now : Tick) (s : State) :
    (∃ g, lookup (keyOf f) s.groups = some g ∧ supersedes f g = false ∧
      reassemble f now s = closeGroup (keyOf f) (writeSlot f now g) s) ∨
    reassemble f now s =
      closeGroup (keyOf f) (writeSlot f now (newGroup f now)) (makeRoom { s with groups := remove (keyOf f) s.groups }) := by
  cases hl : lookup (keyOf f) s.groups with
  | none =>
    right
    have : remove (keyOf f) s.groups = s.groups := by
      rw [lookup_eq_none_iff] at hl
      exact List.filter_eq_self.2 (by simpa using fun a b hab => hl (a, b) hab)
    rw [reassemble_created now hl, this]
  | some g =>
    cases hs : supersedes f g with
    | false => exact .inl ⟨g, rfl, hs, reassemble_joined now hl hs⟩
    | true => exact .inr (reassemble_superseded now hl hs)

/-- The capacity records that making room leaves: none, or one (R162). -/
theorem makeRoom_frame (s : State) :
    ∃ caps : List (Key × Group), caps.length ≤ 1 ∧ (∀ e ∈ caps, e ∈ s.groups) ∧
      makeRoom s = { s with groups := s.groups.filter (fun e => !decide (e.1 ∈ caps.map Prod.fst))
                            out := s.out ++ caps.map (evictedRecord .capacity) } := by
  rcases makeRoom_cases s with h | ⟨-, e, he, -, h⟩
  · exact ⟨[], by simp, by simp, by simp [h]⟩
  · refine ⟨[e], by simp, by simpa using he, ?_⟩
    rw [h]
    simp only [emit, remove]
    congr 2
    funext x
    simp

/-- What reassembly leaves alone (R47, R151): only the table and the output change, and the output only by at most one capacity eviction. -/
theorem reassemble_frame (f : SentenceFields) (now : Tick) (s : State) :
    ∃ (groups : Table) (caps : List (Key × Group)), caps.length ≤ 1 ∧ (∀ e ∈ caps, e ∈ s.groups) ∧
      (reassemble f now s).1 = { s with groups := groups, out := s.out ++ caps.map (evictedRecord .capacity) } ∧
      ∀ k, k ≠ keyOf f → lookup k groups = lookup k s.groups ∨ (lookup k groups = none ∧ ∃ g, (k, g) ∈ caps) := by
  have close : ∀ (g : Group) (u : State), ∃ groups, (closeGroup (keyOf f) g u).1 = { u with groups := groups } ∧
      ∀ k, k ≠ keyOf f → lookup k groups = lookup k u.groups := by
    intro g u
    cases ha : allFilled g with
    | true => exact ⟨_, by rw [closeGroup_complete ha], fun k hk => lookup_remove_of_ne hk _⟩
    | false => exact ⟨_, by rw [closeGroup_pending ha], fun k hk => lookup_insert_of_ne hk _ _⟩
  rcases openGroup_cases f now s with ⟨g, -, -, h⟩ | h
  · obtain ⟨groups, he, hk⟩ := close (writeSlot f now g) s
    exact ⟨groups, [], by simp, by simp, by simp [h, he], fun k hne => .inl (hk k hne)⟩
  · obtain ⟨caps, hl, hm, hr⟩ := makeRoom_frame { s with groups := remove (keyOf f) s.groups }
    obtain ⟨groups, he, hk⟩ := close (writeSlot f now (newGroup f now)) (makeRoom { s with groups := remove (keyOf f) s.groups })
    refine ⟨groups, caps, hl, fun e he => (mem_remove.1 (hm e he)).1, by rw [h, he, hr], fun k hne => ?_⟩
    rw [hk k hne, hr]
    simp only [lookup_filter_keys]
    split
    · next hc => exact .inr ⟨rfl, by simpa using hc⟩
    · exact .inl (lookup_remove_of_ne hne _)

/-- A fragment that leaves its message pending is in a group under its key, with its count, whose filled numbers are returned (R165). -/
theorem reassemble_pending {f : SentenceFields} {now : Tick} {s s' : State} {key : Key} {filled : List Nat}
    (h : reassemble f now s = (s', .pending key filled)) :
    key = keyOf f ∧ ∃ g, lookup key s'.groups = some g ∧ g.count = f.count ∧ filled = filledNumbers g := by
  have close : ∀ (g : Group) (u : State), g.count = f.count → closeGroup (keyOf f) g u = (s', .pending key filled) →
      key = keyOf f ∧ ∃ g, lookup key s'.groups = some g ∧ g.count = f.count ∧ filled = filledNumbers g := by
    intro g u hg hc
    cases ha : allFilled g with
    | true => simp [closeGroup_complete ha] at hc
    | false =>
      simp only [closeGroup_pending ha, Prod.mk.injEq, Reassembly.pending.injEq] at hc
      obtain ⟨rfl, rfl, rfl⟩ := hc
      exact ⟨rfl, g, lookup_insert_self _ _ _, hg, rfl⟩
  rcases openGroup_cases f now s with ⟨g, -, hs, he⟩ | he
  · exact close (writeSlot f now g) s (supersedes_eq_false.1 hs).1 (he ▸ h)
  · exact close (writeSlot f now (newGroup f now)) _ rfl (he ▸ h)

/-! ### The sentence-level stage -/

theorem runSentence_single {c : FeedContext} {r : RawSentence} (h : r.fields.count = 1) (s : State) :
    runSentence c r s = decodePayload c (metaOf r) r.fields.payload r.fields.fill s := by
  simp [runSentence, h]

theorem runSentence_pending {c : FeedContext} {r : RawSentence} {s s' : State} {key : Key} {filled : List Nat}
    (h : r.fields.count ≠ 1) (hr : reassemble r.fields c.now s = (s', .pending key filled)) :
    runSentence c r s = .next (emit (.buffered c.lineNo key r.fields.count filled) s') := by
  simp [runSentence, h, hr]

theorem runSentence_complete {c : FeedContext} {r : RawSentence} {s s' : State} {payload : Line} {fill : Fin 6}
    (h : r.fields.count ≠ 1) (hr : reassemble r.fields c.now s = (s', .complete payload fill)) :
    runSentence c r s = decodePayload c (metaOf r) payload fill s' := by
  simp [runSentence, h, hr]

/-- The record that ends a sentence's stage belongs to its line: Buffered, Error or Decoded (R105). -/
theorem runSentence_eq (c : FeedContext) (r : RawSentence) (s : State) :
    ∃ (u : State) (rec : Record), runSentence c r s = .next (emit rec u) ∧
      (u = s ∧ r.fields.count = 1 ∨ u = (reassemble r.fields c.now s).1 ∧ r.fields.count ≠ 1) ∧
      ((∃ e, rec = errorRecord c.lineNo e c.raw) ∨ (∃ fill bitlen d, rec = .decoded c.lineNo (metaOf r) fill bitlen d) ∨
        ∃ key filled, rec = .buffered c.lineNo key r.fields.count filled) := by
  by_cases h : r.fields.count = 1
  · obtain ⟨rec, he, hc⟩ := decodePayload_eq c (metaOf r) r.fields.payload r.fields.fill
    refine ⟨s, rec, by rw [runSentence_single h, he], .inl ⟨rfl, h⟩, ?_⟩
    rcases hc with hc | ⟨bitlen, d, hc⟩
    · exact .inl hc
    · exact .inr (.inl ⟨_, _, _, hc⟩)
  · rcases hr : reassemble r.fields c.now s with ⟨s', res⟩
    cases res with
    | pending key filled =>
      exact ⟨s', _, runSentence_pending h hr, .inr ⟨rfl, h⟩, .inr (.inr ⟨_, _, rfl⟩)⟩
    | complete payload fill =>
      obtain ⟨rec, he, hc⟩ := decodePayload_eq c (metaOf r) payload fill
      refine ⟨s', rec, by rw [runSentence_complete h hr, he], .inr ⟨rfl, h⟩, ?_⟩
      rcases hc with hc | ⟨bitlen, d, hc⟩
      · exact .inl hc
      · exact .inr (.inl ⟨_, _, _, hc⟩)

/-! ### Operations and the step -/

theorem execFeed_of_error {s : State} {line : Line} {e : ErrorKind} (now : Tick) (h : parse s.build line = .error e) :
    execFeed line now s = .next (emit (errorRecord s.feedCount e line) (beginFeed now s)) := by
  simp [execFeed, h]

/-- A FEED whose line parses runs the sentence's stage after eviction (R104). -/
theorem execFeed_of_sentence {s : State} {line : Line} {r : RawSentence} (now : Tick) (h : parse s.build line = .ok r) :
    execFeed line now s = runSentence (feedContext line now s) r (beginFeed now s) := by
  obtain ⟨sid, f⟩ := r
  cases sid <;> simp [execFeed, h, execVdm, execVdo]

theorem exec_toInstr (c : FeedContext) (r : RawSentence) (s : State) : exec (r.toInstr c) s = runSentence c r s := by
  obtain ⟨sid, f⟩ := r
  cases sid <;> rfl

/-- What one step can do (R100, R109): nothing is presented and the state stays; a word is taken that spells an operation, and it is
performed; or the word is refused. -/
theorem step_cases (s : State) :
    (s.inbox = [] ∧ step s = .next s) ∨
    (∃ w ws i, s.inbox = w :: ws ∧ decodeOp w = .ok i ∧ step s = exec i { s with inbox := ws }) ∨
    (∃ w ws e, s.inbox = w :: ws ∧ decodeOp w = .error e ∧ step s = .refused (.notAnOperation e)) := by
  cases hi : s.inbox with
  | nil => exact .inl ⟨rfl, by simp [step, fetch, hi]⟩
  | cons w ws =>
    cases hd : decodeOp w with
    | error e => exact .inr (.inr ⟨w, ws, e, rfl, hd, by simp [step, fetch, hi, hd]⟩)
    | ok i => exact .inr (.inl ⟨w, ws, i, rfl, hd, by simp [step, fetch, hi, hd]⟩)

/-- The port's operations (R60, R109). -/
theorem decodeOp_cases {w : OpWord} {i : Instr} (h : decodeOp w = .ok i) :
    (∃ m t, i = .reset m t ∧ w = { code := 0#8, operands := [natOperand m, tickOperand t] }) ∨
    (∃ line now, i = .feed line now ∧ w = { code := 1#8, operands := [.line line, .tick now] }) ∨
    (∃ now, i = .tick now ∧ w = { code := 2#8, operands := [.tick now] }) := by
  obtain ⟨code, operands⟩ := w
  simp only [decodeOp] at h
  split at h
  · next h0 =>
    subst h0
    left
    unfold decodeReset at h
    split at h
    · next m t =>
      cases m <;> cases t <;> simp [natOrAbsent, tickOrAbsent, orWrongOperands] at h <;> subst h <;>
        exact ⟨_, _, rfl, by simp [natOperand, tickOperand]⟩
    · simp [orWrongOperands] at h
  · split at h
    · next h1 =>
      subst h1
      right; left
      unfold decodeFeed at h
      split at h
      · simp [orWrongOperands] at h; exact ⟨_, _, h.symm, rfl⟩
      · simp [orWrongOperands] at h
    · split at h
      · next h2 =>
        subst h2
        right; right
        unfold decodeTick at h
        split at h
        · simp [orWrongOperands] at h; exact ⟨_, h.symm, rfl⟩
        · simp [orWrongOperands] at h
      · simp at h

end Sys2Proof.Machine
end

