-- ==== Sys2Proof/Laws/Text.lean ====
section
/-! SUPPORT. Lines as text: terminators, the first star, the pieces between commas, decimal and hexadecimal digits. -/

namespace Sys2Proof

/-! ### Terminators (R121) -/

theorem isTerminator_iff (c : Byte) : isTerminator c = true ↔ c = 0x0D#8 ∨ c = 0x0A#8 := by simp [isTerminator]

/-- Terminators at the end make no difference. -/
theorem stripTerminators_append (line ending : Line) (h : ∀ c ∈ ending, isTerminator c = true) :
    stripTerminators (line ++ ending) = stripTerminators line := by
  induction ending using List.reverseRecOn with
  | nil => simp
  | append_singleton ending c ih =>
    rw [← List.append_assoc, stripTerminators, List.rdropWhile_concat_pos _ _ _ (h c (by simp))]
    exact ih fun x hx => h x (by simp [hx])

/-- A line that does not end in a terminator is its own stripped line. -/
theorem stripTerminators_eq_self {line : Line} (h : ∀ c, line.getLast? = some c → isTerminator c = false) :
    stripTerminators line = line := by
  induction line using List.reverseRecOn with
  | nil => rfl
  | append_singleton line c _ =>
    have := h c (by simp)
    rw [stripTerminators, List.rdropWhile_concat_neg _ _ _ (by simp [this])]

/-- A line is its stripped line and terminators. -/
theorem exists_terminators (line : Line) :
    ∃ ending, line = stripTerminators line ++ ending ∧ ∀ c ∈ ending, isTerminator c = true :=
  ⟨line.rtakeWhile isTerminator, (List.rdropWhile_append_rtakeWhile ..).symm, fun _ h => List.mem_rtakeWhile_imp h⟩

/-! ### The first star (R125) -/

theorem splitAtStar_eq_none {l : Line} : splitAtStar l = none ↔ 0x2A#8 ∉ l := by
  induction l with
  | nil => simp [splitAtStar]
  | cons c cs ih =>
    by_cases hc : c = 0x2A#8
    · simp [splitAtStar, hc]
    · cases h : splitAtStar cs with
      | none => simp [splitAtStar, hc, h, ih.1 h, Ne.symm hc]
      | some p =>
        have : 0x2A#8 ∈ cs := by by_contra hn; simp [ih.2 hn] at h
        simp [splitAtStar, hc, h, this]

theorem splitAtStar_eq_some {l before after : Line} :
    splitAtStar l = some (before, after) ↔ l = before ++ 0x2A#8 :: after ∧ 0x2A#8 ∉ before := by
  induction l generalizing before with
  | nil => simp [splitAtStar]
  | cons c cs ih =>
    by_cases hc : c = 0x2A#8
    · subst hc
      cases before with
      | nil => simp [splitAtStar]
      | cons x xs =>
        simp only [splitAtStar, if_true, Option.some.injEq, Prod.mk.injEq, List.cons_append, List.cons.injEq, List.mem_cons]
        constructor
        · rintro ⟨h, -⟩; simp at h
        · rintro ⟨⟨h, -⟩, h'⟩; exact absurd (.inl h) h'
    · cases before with
      | nil =>
        simp only [splitAtStar, hc, if_false, List.nil_append, List.cons.injEq, false_and, iff_false]
        split <;> simp
      | cons x xs =>
        simp only [splitAtStar, hc, if_false, List.cons_append, List.cons.injEq, List.mem_cons]
        constructor
        · intro h
          split at h
          · simp at h
          · next before' after' hs =>
            simp only [Option.some.injEq, Prod.mk.injEq, List.cons.injEq] at h
            obtain ⟨⟨rfl, rfl⟩, rfl⟩ := h
            obtain ⟨h1, h2⟩ := ih.1 hs
            exact ⟨⟨rfl, h1⟩, by rintro (h | h); exacts [hc h.symm, h2 h]⟩
        · rintro ⟨⟨rfl, h⟩, h'⟩
          rw [ih.2 ⟨h, fun hm => h' (.inr hm)⟩]

/-! ### The pieces between commas (R129) -/

theorem splitAtByte_ne_nil (b : Byte) (l : Line) : splitAtByte b l ≠ [] := by
  cases l with
  | nil => simp [splitAtByte]
  | cons c cs =>
    simp only [splitAtByte]
    split
    · simp
    · split <;> simp

/-- A piece without the byte, put before a split. -/
theorem splitAtByte_append {b : Byte} {f : Line} (h : b ∉ f) (l : Line) :
    splitAtByte b (f ++ b :: l) = f :: splitAtByte b l := by
  induction f with
  | nil => simp [splitAtByte]
  | cons c cs ih =>
    simp only [List.mem_cons, not_or] at h
    simp [splitAtByte, Ne.symm h.1, ih h.2]

theorem splitAtByte_of_notMem {b : Byte} {f : Line} (h : b ∉ f) : splitAtByte b f = [f] := by
  induction f with
  | nil => simp [splitAtByte]
  | cons c cs ih =>
    simp only [List.mem_cons, not_or] at h
    simp [splitAtByte, Ne.symm h.1, ih h.2]

/-- Splitting what was joined gives the pieces back. -/
theorem splitAtByte_intercalate {b : Byte} {fields : List Line} (hn : fields ≠ []) (h : ∀ f ∈ fields, b ∉ f) :
    splitAtByte b (List.intercalate [b] fields) = fields := by
  induction fields with
  | nil => exact absurd rfl hn
  | cons f fs ih =>
    cases fs with
    | nil => simpa using splitAtByte_of_notMem (h f (by simp))
    | cons g gs =>
      have := ih (by simp) fun x hx => h x (List.mem_cons_of_mem _ hx)
      rw [List.intercalate_cons_cons, List.append_assoc, List.singleton_append, splitAtByte_append (h f (by simp)), this]

/-- Joining what was split gives the line back. -/
theorem intercalate_splitAtByte (b : Byte) (l : Line) : List.intercalate [b] (splitAtByte b l) = l := by
  induction l with
  | nil => simp [splitAtByte]
  | cons c cs ih =>
    simp only [splitAtByte]
    split
    · next hc =>
      subst hc
      cases h : splitAtByte c cs with
      | nil => exact absurd h (splitAtByte_ne_nil c cs)
      | cons f fs => rw [h] at ih; rw [List.intercalate_cons_cons, ih]; rfl
    · cases h : splitAtByte b cs with
      | nil => exact absurd h (splitAtByte_ne_nil b cs)
      | cons f fs =>
        rw [h] at ih
        cases fs with
        | nil => simp at ih ⊢; exact ih
        | cons g gs => rw [List.intercalate_cons_cons] at ih ⊢; simp [← ih]

/-- A byte of a piece is a byte of the joined line. -/
theorem mem_intercalate_of_mem {sep f : Line} {fields : List Line} {c : Byte} (hf : f ∈ fields) (hc : c ∈ f) :
    c ∈ List.intercalate sep fields := by
  induction fields with
  | nil => simp at hf
  | cons g gs ih =>
    cases gs with
    | nil => simp at hf; subst hf; simpa using hc
    | cons h hs =>
      rw [List.intercalate_cons_cons]
      rcases List.mem_cons.1 hf with rfl | hf
      · simp [hc]
      · exact List.mem_append_right _ (ih hf)

theorem notMem_of_mem_splitAtByte {b : Byte} {l f : Line} (h : f ∈ splitAtByte b l) : b ∉ f := by
  induction l generalizing f with
  | nil => simp [splitAtByte] at h; simp [h]
  | cons c cs ih =>
    simp only [splitAtByte] at h
    split at h
    · rcases List.mem_cons.1 h with rfl | h
      · simp
      · exact ih h
    · next hc =>
      split at h
      · simp at h; subst h; simp [Ne.symm hc]
      · next g gs hs =>
        rcases List.mem_cons.1 h with rfl | h
        · have := @ih g (by rw [hs]; simp)
          simp [Ne.symm hc, this]
        · exact ih (by rw [hs]; exact List.mem_cons_of_mem _ h)

/-! ### Decimal digits (R65, R123) -/

theorem isDigit_iff (c : Byte) : isDigit c = true ↔ 0x30 ≤ c.toNat ∧ c.toNat ≤ 0x39 := by simp [isDigit]

theorem foldl_digits (acc : Nat) (s : Line) :
    s.foldl (fun acc c => 10 * acc + (c.toNat - 0x30)) acc =
      acc * 10 ^ s.length + Nat.ofDigits 10 (s.reverse.map (fun c => c.toNat - 0x30)) := by
  induction s generalizing acc with
  | nil => simp
  | cons c cs ih =>
    rw [List.foldl_cons, ih, List.reverse_cons, List.map_append, Nat.ofDigits_append]
    simp [pow_succ]
    ring

/-- `dec` reads one or more digits, most significant first. -/
theorem dec_eq_some {s : Line} {n : Nat} :
    dec s = some n ↔ s ≠ [] ∧ (∀ c ∈ s, 0x30 ≤ c.toNat ∧ c.toNat ≤ 0x39) ∧
      n = Nat.ofDigits 10 (s.reverse.map (fun c => c.toNat - 0x30)) := by
  unfold dec
  by_cases hs : s = []
  · simp [hs]
  by_cases hd : ∀ c ∈ s, 0x30 ≤ c.toNat ∧ c.toNat ≤ 0x39
  · have : s.all isDigit = true := by simpa [isDigit_iff] using hd
    have hf := foldl_digits 0 s
    simp only [zero_mul, zero_add] at hf
    simp only [hs, this, List.isEmpty_iff, Bool.not_true, Bool.or_false, if_false,
      hf, Option.some.injEq, ne_eq, not_false_eq_true, true_and]
    constructor
    · rintro rfl; exact ⟨hd, rfl⟩
    · rintro ⟨-, rfl⟩; simp
  · have : s.all isDigit = false := by
      rw [Bool.eq_false_iff]; intro h; exact hd (by simpa [isDigit_iff] using h)
    simp [this, hd]

theorem digitByte_toNat {d : Nat} (h : d ≤ 9) : (digitByte d).toNat = 0x30 + d := by
  simp [digitByte]; omega

theorem decDigitsAux_spec (fuel n : Nat) (acc : Line) (h : n < fuel) :
    ∃ ds, decDigitsAux fuel n acc = ds ++ acc ∧ ds ≠ [] ∧ (∀ c ∈ ds, 0x30 ≤ c.toNat ∧ c.toNat ≤ 0x39) ∧
      n = Nat.ofDigits 10 (ds.reverse.map (fun c => c.toNat - 0x30)) := by
  induction fuel generalizing n acc with
  | zero => omega
  | succ fuel ih =>
    unfold decDigitsAux
    split
    · next hn => exact ⟨[digitByte n], rfl, by simp, by simp [digitByte_toNat (show n ≤ 9 by omega)]; omega,
        by simp [digitByte_toNat (show n ≤ 9 by omega)]⟩
    · next hn =>
      obtain ⟨ds, h1, h2, h3, h4⟩ := ih (n / 10) (digitByte (n % 10) :: acc) (by omega)
      have hd := digitByte_toNat (show n % 10 ≤ 9 by omega)
      refine ⟨ds ++ [digitByte (n % 10)], by simp [h1], by simp, ?_, ?_⟩
      · intro c hc
        rcases List.mem_append.1 hc with hc | hc
        · exact h3 c hc
        · simp at hc; subst hc; omega
      · rw [List.reverse_append, List.reverse_singleton, List.singleton_append, List.map_cons, Nat.ofDigits_cons, ← h4, hd]
        simp; omega

/-- The digits of a number spell it. -/
theorem dec_decDigits (n : Nat) : dec (decDigits n) = some n := by
  obtain ⟨ds, h1, h2, h3, h4⟩ := decDigitsAux_spec (n + 1) n [] (by omega)
  rw [decDigits, h1, List.append_nil]
  exact dec_eq_some.2 ⟨h2, h3, h4⟩

/-- Decimal text holds neither a comma nor a star. -/
theorem notMem_of_dec {s : Line} {n : Nat} (h : dec s = some n) : 0x2C#8 ∉ s ∧ 0x2A#8 ∉ s := by
  have := (dec_eq_some.1 h).2.1
  exact ⟨fun hm => absurd (this _ hm) (by decide), fun hm => absurd (this _ hm) (by decide)⟩

theorem ne_nil_of_dec {s : Line} {n : Nat} (h : dec s = some n) : s ≠ [] := (dec_eq_some.1 h).1

/-! ### Hexadecimal digits (R68, R123) -/

theorem hexVal_eq_some {c : Byte} {v : Nat} :
    hexVal c = some v ↔ (v ≤ 9 ∧ c.toNat = 0x30 + v) ∨ (10 ≤ v ∧ v ≤ 15 ∧ (c.toNat = 0x37 + v ∨ c.toNat = 0x57 + v)) := by
  unfold hexVal
  split
  · simp; omega
  · split
    · simp; omega
    · split
      · simp; omega
      · simp; omega

theorem hexPair_eq_some {s : Line} {x : Byte} :
    hexPair s = some x ↔ ∃ c1 c2 h l, s = [c1, c2] ∧ hexVal c1 = some h ∧ hexVal c2 = some l ∧
      x = BitVec.ofNat 8 (16 * h + l) := by
  constructor
  · intro h
    unfold hexPair at h
    split at h
    · next c1 c2 =>
      split at h
      · next h1 h2 => exact ⟨c1, c2, _, _, rfl, h1, h2, by simpa using h.symm⟩
      · simp at h
    · simp at h
  · rintro ⟨c1, c2, h, l, rfl, h1, h2, rfl⟩
    simp [hexPair, h1, h2]

theorem hexPair_hexDigits (x : Byte) : hexPair (hexDigits x) = some x := by revert x; decide

theorem hexDigits_eq (x : Byte) : ∃ h1 h2, hexDigits x = [h1, h2] := ⟨_, _, rfl⟩

/-- A hexadecimal digit is no terminator. -/
theorem isTerminator_of_hexVal {c : Byte} {v : Nat} (h : hexVal c = some v) : isTerminator c = false := by
  rw [Bool.eq_false_iff, ne_eq, isTerminator_iff]
  rintro (rfl | rfl) <;> simp [hexVal] at h

end Sys2Proof
end

