-- ==== Sys2Proof/Tests/Slice0.lean ====
section
/-! SUPPORT. Tests: the well-formedness smoke, words written out from the spec, one-step tests from the spec's worked examples, and a
witness for the hypotheses of every statement that has some. -/

set_option maxRecDepth 20000

namespace Sys2Proof.Tests

open Sys2Proof Sys2Proof.Machine Sys2Proof.Claim

/-! ### Helpers -/

/-- The bytes of an ASCII text. -/
def ascii (cs : List Char) : Line := cs.map (fun c => BitVec.ofNat 8 c.toNat)

/-- The bits of a numeral, most significant first. -/
def word (w n : Nat) : Bits := bitsOf (BitVec.ofNat w n)

/-- The next state of an outcome. -/
def stateOf : Host.Outcome State Fault Refusal → Option State
  | .next s => some s
  | .fault _ => none
  | .refused _ => none

/-- The instruction of a decoding. -/
def instrOf : Except DecodeError Instr → Option Instr
  | .ok i => some i
  | .error _ => none

/-- The parsed sentence. -/
def sentenceOf : Except ErrorKind RawSentence → Option RawSentence
  | .ok r => some r
  | .error _ => none

/-- The failure of a parse or a decode. -/
def errorOf {α : Type} : Except ErrorKind α → Option ErrorKind
  | .ok _ => none
  | .error e => some e

/-- The payload of the source's example: 13HOI:0P0000VOHLCnHQKwvL05Ip. -/
def payload1 : Line := ascii
  ['1', '3', 'H', 'O', 'I', ':', '0', 'P', '0', '0', '0', '0', 'V', 'O', 'H', 'L', 'C', 'n', 'H', 'Q', 'K', 'w', 'v',
   'L', '0', '5', 'I', 'p']

/-- The payload of 95_test_vectors.md V31, fragment 1: 55?MbV02;H;s<HtKR20EHE:0@T4@Dn2222222216L961O5Gf0NSQEp6ClRp8. -/
def payload2 : Line := ascii
  ['5', '5', '?', 'M', 'b', 'V', '0', '2', ';', 'H', ';', 's', '<', 'H', 't', 'K', 'R', '2', '0', 'E', 'H', 'E', ':',
   '0', '@', 'T', '4', '@', 'D', 'n', '2', '2', '2', '2', '2', '2', '2', '2', '1', '6', 'L', '9', '6', '1', 'O', '5',
   'G', 'f', '0', 'N', 'S', 'Q', 'E', 'p', '6', 'C', 'l', 'R', 'p', '8']

/-- The payload of 95_test_vectors.md V31, fragment 2: 88888888880. -/
def payload3 : Line := ascii
  ['8', '8', '8', '8', '8', '8', '8', '8', '8', '8', '0']

/-- The region of the source's example: AIVDM,1,1,,A,(payload1),0. -/
def region1 : Line :=
  ascii ['A', 'I', 'V', 'D', 'M', ',', '1', ',', '1', ',', ',', 'A', ','] ++ payload1 ++ ascii [',', '0']

/-- The line of the source's example (95_test_vectors.md V1). -/
def v1 : Line := 0x21#8 :: region1 ++ ascii ['*', '2', '3']

/-- The same with an altered checksum (95_test_vectors.md V2). -/
def v2 : Line := 0x21#8 :: region1 ++ ascii ['*', '2', '2']

/-- The texts of V31: 3FOF8, EVER DIADEM, NEW YORK. -/
def texts31 : List Line :=
  [ascii ['3', 'F', 'O', 'F', '8'], ascii ['E', 'V', 'E', 'R', ' ', 'D', 'I', 'A', 'D', 'E', 'M'],
   ascii ['N', 'E', 'W', ' ', 'Y', 'O', 'R', 'K']]

/-- The channel `A`. -/
def chA : Option Byte := some 0x41#8

/-- A sentence's fields with the given count, number, payload and fill; talker AI, channel A, sequential id 1. -/
def frag (count number : Nat) (payload : Line) (fill : Fin 6) : SentenceFields :=
  { start := .bang, talker1 := 0x41#8, talker2 := 0x49#8, count := count, number := number, seqEmpty := false, seq := 1
    channel := chA, payload := payload, fill := fill, checksum := 0#8 }

/-- The two fragments of 95_test_vectors.md V31. -/
def f1 : SentenceFields := frag 2 1 payload2 0
def f2 : SentenceFields := frag 2 2 payload3 2

/-- The context of a FEED at this time. -/
def ctx (now : Nat) : FeedContext := { lineNo := 7#64, raw := [], now := BitVec.ofNat 64 now }

/-- The key of the fragments above. -/
def keyA1 : Key := { channel := chA, seq := 1 }

/-- A group of two with one fragment, last written at 1000. -/
def group1 : Machine.Group := { count := 2, slots := [some (slotOf f1), none], lastActivity := 1000#64 }
def group2 : Machine.Group := { count := 2, slots := [none, some (slotOf f2)], lastActivity := 1000#64 }

/-- The reset state with one pending group. -/
def pending1 : State := { State.reset with groups := [(keyA1, group1)] }
def pending2 : State := { State.reset with groups := [(keyA1, group2)] }

/-- The meta of a message context of V1. -/
def mctx : MessageContext :=
  { lineNo := 0#64, fillUsed := 0
    info := { start := .bang, talker1 := 0x41#8, talker2 := 0x49#8, sid := .vdm, channel := chA, seqEmpty := true, seq := 0
              count := 1, number := 1, fill := 0, checksum := 0x23#8 } }

/-! ### Well-formedness: an ill-formed term for each check -/

def ref : Build := Build.reference

theorem test_wellFormed_fragment : (Instr.vdm (ctx 0) f2).wellFormed ref = true := by decide
theorem test_illFormed_reset_zero : (Instr.reset (some 0) none).wellFormed ref = false := by decide
theorem test_illFormed_talker1 : (Instr.vdm (ctx 0) { f2 with talker1 := 0x61#8 }).wellFormed ref = false := by decide
theorem test_illFormed_talker2 : (Instr.vdo (ctx 0) { f2 with talker2 := 0x5B#8 }).wellFormed ref = false := by decide
theorem test_illFormed_count_zero : (Instr.vdm (ctx 0) (frag 0 1 [] 0)).wellFormed ref = false := by decide
theorem test_illFormed_count_ten : (Instr.vdm (ctx 0) (frag 10 1 [] 0)).wellFormed ref = false := by decide
theorem test_illFormed_number_zero : (Instr.vdm (ctx 0) (frag 2 0 [] 0)).wellFormed ref = false := by decide
theorem test_illFormed_number_over_count : (Instr.vdo (ctx 0) (frag 2 3 [] 0)).wellFormed ref = false := by decide
theorem test_illFormed_seq : (Instr.vdm (ctx 0) { f2 with seq := 10 }).wellFormed ref = false := by decide
theorem test_illFormed_empty_seq : (Instr.vdm (ctx 0) { f2 with seqEmpty := true }).wellFormed ref = false := by decide
theorem test_illFormed_channel : (Instr.vdm (ctx 0) { f2 with channel := some 0x2C#8 }).wellFormed ref = false := by decide
theorem test_illFormed_payload : (Instr.vdm (ctx 0) (frag 2 1 (ascii ['1', '*']) 0)).wellFormed ref = false := by decide
theorem test_illFormed_msg1 : (Instr.msg1 mctx 142 (positionFields [])).wellFormed ref = false := by decide
theorem test_illFormed_msg2 : (Instr.msg2 mctx 142 (positionFields [])).wellFormed ref = false := by decide
theorem test_illFormed_msg3 : (Instr.msg3 mctx 142 (positionFields [])).wellFormed ref = false := by decide
theorem test_illFormed_msg4 : (Instr.msg4 mctx 137 (baseStationFields [])).wellFormed ref = false := by decide
theorem test_illFormed_msg5 : (Instr.msg5 mctx 421 (staticFields [])).wellFormed ref = false := by decide

/-! ### Words written out from the spec -/

/-- 30_encoding.md R60: op codes 0, 1 and 2. -/
theorem test_decode_reset :
    instrOf (decode ref (.operation { code := 0x00#8, operands := [.nat 16, .tick 5000#64] })) =
      some (.reset (some 16) (some 5000#64)) := by decide

theorem test_decode_reset_defaults :
    instrOf (decode ref (.operation { code := 0x00#8, operands := [.absent, .absent] })) = some (.reset none none) := by decide

theorem test_decode_feed :
    instrOf (decode ref (.operation { code := 0x01#8, operands := [.line [0x21#8], .tick 3#64] })) =
      some (.feed [0x21#8] 3#64) := by decide

theorem test_decode_tick :
    instrOf (decode ref (.operation { code := 0x02#8, operands := [.tick 6001#64] })) = some (.tick 6001#64) := by decide

/-- 40_operations.md R109: op code 3, and an operand of the wrong type. -/
theorem test_decode_refused :
    instrOf (decode ref (.operation { code := 0x03#8, operands := [.tick 0#64] })) = none ∧
    instrOf (decode ref (.operation { code := 0x02#8, operands := [.nat 0] })) = none := by decide

/-- 95_test_vectors.md V31: the second fragment. -/
theorem test_decode_vdm :
    instrOf (decode ref (.sentence (ctx 0)
        (ascii ['!', 'A', 'I', 'V', 'D', 'M', ',', '2', ',', '2', ',', '1', ',', 'A', ','] ++ payload3 ++
          ascii [',', '2', '*', '2', '5']))) =
      some (.vdm (ctx 0)
        { start := .bang, talker1 := 0x41#8, talker2 := 0x49#8, count := 2, number := 2, seqEmpty := false, seq := 1
          channel := some 0x41#8, payload := payload3, fill := 2, checksum := 0x25#8 }) := by decide

/-- 95_test_vectors.md P31: `$`, VDO, leading zeros in the sequential id. -/
theorem test_decode_vdo :
    instrOf (decode ref (.sentence (ctx 0)
        (ascii ['$', 'A', 'I', 'V', 'D', 'O', ',', '1', ',', '1', ',', '0', '0', '7', ',', 'C', ','] ++ payload1 ++
          ascii [',', '0', '*', '1', '4']))) =
      some (.vdo (ctx 0)
        { start := .dollar, talker1 := 0x41#8, talker2 := 0x49#8, count := 1, number := 1, seqEmpty := false, seq := 7
          channel := some 0x43#8, payload := payload1, fill := 0
          checksum := 0x14#8 }) := by decide

/-- The layout of 30_encoding.md R75 with the values of 44_field_extractor.md R204, field by field. -/
def positionWord : Bits :=
  word 55 0b00_001101100001111101100100101000_0000_10000000_0000000000_0 ++
    word 82 0b0000000000010011001111101100_001110001001111011001100010_000101101111_111111111_001110

def positionValues : PositionFields :=
  { repeatInd := 0#2, mmsi := 227006760#30, navStatus := 0#4, rot := 128#8, sog := 0#10, accuracy := 0#1, lon := 78828#28
    lat := 29685346#27, cog := 367#12, heading := 511#9, second := 14#6 }

theorem test_decode_msg1 :
    instrOf (decode ref (.message mctx (word 6 0b000001 ++ positionWord))) = some (.msg1 mctx 143 positionValues) := by decide

theorem test_decode_msg2 :
    instrOf (decode ref (.message mctx (word 6 0b000010 ++ positionWord ++ word 3 0b111))) =
      some (.msg2 mctx 146 positionValues) := by decide

theorem test_decode_msg3 :
    instrOf (decode ref (.message mctx (word 6 0b000011 ++ positionWord))) = some (.msg3 mctx 143 positionValues) := by decide

/-- The layout of 30_encoding.md R76 with the values of 44_field_extractor.md R217, field by field. -/
def baseStationWord : Bits :=
  word 79 0b000100_00_000000001101111111111011000110_00011111010111_0101_01110_10011_111001_100111_1 ++
    word 59 0b1101010001001111100100100111_001010100011010111001010100_0111

theorem test_decode_msg4 :
    instrOf (decode ref (.message mctx baseStationWord)) =
      some (.msg4 mctx 138
        { repeatInd := 0#2, mmsi := 3669702#30, year := 2007#14, month := 5#4, day := 14#5, hour := 19#5, minute := 57#6
          second := 39#6, accuracy := 1#1, lon := BitVec.ofInt 28 (-45811417), lat := 22130260#27, epfd := 7#4 }) := by decide

/-- The layout of 30_encoding.md R77 with the values of 44_field_extractor.md R223, field by field. -/
def staticWord : Bits :=
  word 70 0b000101_00_010100111101110110101010011000_00_000000100010110110000010111110 ++
    word 42 0b110011_000110_001111_000110_111000_000000_000000 ++
    word 66 0b000101_010110_000101_010010_100000_000100_001001_000001_000100_000101_001101 ++
    word 54 0b000000_000000_000000_000000_000000_000000_000000_000000_000000 ++
    word 70 0b01000110_011100001_001000110_000001_011111_0001_0101_01111_01110_000000_01111010 ++
    word 48 0b001110_000101_010111_100000_011001_001111_010010_001011 ++
    word 72 0b000000_000000_000000_000000_000000_000000_000000_000000_000000_000000_000000_000000

/-- What is compared of a type 5 message: its numbers, and its texts as characters. -/
def staticView : Option Instr → Option (List Nat × List Line)
  | some (.msg5 _ bitlen f) =>
    some ([bitlen, f.repeatInd.toNat, f.mmsi.toNat, f.aisVersion.toNat, f.imo.toNat, f.shipType.toNat, f.toBow.toNat, f.toStern.toNat,
           f.toPort.toNat, f.toStarboard.toNat, f.epfd.toNat, f.etaMonth.toNat, f.etaDay.toNat, f.etaHour.toNat, f.etaMinute.toNat,
           f.draught.toNat],
          [text 7 f.callsign, text 20 f.shipname, text 20 f.destination])
  | _ => none

theorem test_decode_msg5 :
    staticView (instrOf (decode ref (.message mctx staticWord))) =
      some ([422, 0, 351759000, 0, 9134270, 70, 225, 70, 1, 31, 1, 5, 15, 14, 0, 122],
            texts31) := by decide

/-- Words of the opcode table, as the host numbers them (log entry 9). -/
theorem test_table_operations :
    decodeTableWord 8 0x00 = some (.reset none none) ∧ decodeTableWord 8 0x01 = some (.feed [] 0#64) ∧
    decodeTableWord 8 0x02 = some (.tick 0#64) := by decide

theorem test_table_sentences :
    ((decodeTableWord 48 0x00000056444D).map Laws.TableMatch.rowMatch = some 0x56444D) ∧
    ((decodeTableWord 48 0x00000056444F).map Laws.TableMatch.rowMatch = some 0x56444F) ∧
    decodeTableWord 48 0x000000564450 = none := by decide

theorem test_table_messages :
    (decodeTableWord 6 1).map Laws.TableMatch.rowMatch = some 1 ∧ (decodeTableWord 6 2).map Laws.TableMatch.rowMatch = some 2 ∧
    (decodeTableWord 8 3).map Laws.TableMatch.rowMatch = some 3 ∧ (decodeTableWord 8 4).map Laws.TableMatch.rowMatch = some 4 ∧
    (decodeTableWord 8 5).map Laws.TableMatch.rowMatch = some 5 ∧
    (decodeTableWord 8 0xC1).map Laws.TableMatch.rowMatch = some 1 ∧ decodeTableWord 8 6 = none := by decide

/-! ### One-step tests -/

/-- 70_reset_and_hazards.md R274 and 40_operations.md R102. -/
theorem test_reset_refused : stateOf (exec (.reset (some 0) (some 9#64)) pending1) = some pending1 := by decide

theorem test_reset_discards :
    stateOf (exec (.reset (some 1) none) { pending1 with feedCount := 4#64 }) =
      some { State.reset with cfgMaxGroups := 1 } := by decide

/-- 95_test_vectors.md V2: the altered checksum. -/
theorem test_feed_checksum :
    (stateOf (exec (.feed v2 0#64) State.reset)).map State.out =
      some [.error 0#64 2 0 (.checksum 0x23#8 0x22#8) v2] := by
  decide

/-- 40_operations.md R107: the source's example. -/
theorem test_feed_example :
    (stateOf (exec (.feed v1 0#64) State.reset)).map (fun s => (s.feedCount, s.out)) =
      some (1#64,
        [.decoded 0#64 mctx.info 0 168 (.position
          { type := 1, repeatInd := 0, mmsi := 227006760, navStatus := 0, rot := -128, rotClass := .unavailable, sog := 0
            sogClass := .available, accuracy := false, lon := 78828, lonClass := .available, lat := 29685346
            latClass := .available, cog := 367, cogClass := .available, heading := 511, headingClass := .unavailable
            second := 14, secondClass := .available })]) := by
  decide

/-- 40_operations.md R108: an age of 5000 stays, an age of 5001 is evicted. -/
theorem test_tick_at_threshold : stateOf (exec (.tick 6000#64) pending1) = some pending1 := by decide

theorem test_tick_over_threshold :
    stateOf (exec (.tick 6001#64) pending1) =
      some { State.reset with out := [.evicted 3 .idle keyA1 2 [1] 1000#64] } := by decide

/-- 95_test_vectors.md V4: fragment 2 first. -/
theorem test_vdm_buffers :
    (stateOf (exec (.vdm (ctx 1000) f2) State.reset)).map (fun s => (s.groups, s.out)) =
      some ([(keyA1, group2)], [.buffered 7#64 keyA1 2 [2]]) := by decide

/-- 42_fragment_reassembler.md R153: a second fragment 1 supersedes without a record. -/
theorem test_vdm_supersedes :
    (stateOf (exec (.vdm (ctx 2000) (frag 2 1 (ascii ['1']) 0)) pending1)).map (fun s => (s.groups, s.out)) =
      some ([(keyA1, { count := 2, slots := [some { payload := ascii ['1'], fill := 0 }, none], lastActivity := 2000#64 })],
            [.buffered 7#64 keyA1 2 [1]]) := by decide

/-- What is compared of a type 5 record: its fill count, its bit length and its texts. -/
def recordView : List Record → List Nat × List Line
  | [.decoded _ _ fill bitlen (.staticData m)] => ([fill.val, bitlen], [m.callsign, m.shipname, m.destination])
  | _ => ([], [])

/-- 95_test_vectors.md V4 and V31: fragment 1 completes; a VDO fragment joins a VDM group (R158). -/
theorem test_vdo_completes :
    (stateOf (exec (.vdo (ctx 2000) f1) pending2)).map State.groups = some [] ∧
    (stateOf (exec (.vdo (ctx 2000) f1) pending2)).map (fun s => recordView s.out) = some ([2, 424], texts31) := by decide

/-- The types of the records in an output list. -/
def typesOf (rs : List Record) : List Nat :=
  rs.map (fun r => match r with
    | .decoded _ _ _ _ (.position m) => m.type
    | .decoded _ _ _ _ (.baseStation m) => m.type
    | .decoded _ _ _ _ (.staticData m) => m.type
    | _ => 0)

/-- 44_field_extractor.md R203: the type is kept as read. -/
theorem test_msg_types :
    [exec (.msg1 mctx 168 positionValues) State.reset, exec (.msg2 mctx 168 positionValues) State.reset,
     exec (.msg3 mctx 168 positionValues) State.reset].map (fun o => (stateOf o).map (fun s => typesOf s.out)) =
      [some [1], some [2], some [3]] := by decide

/-- 44_field_extractor.md R206, R207, R211: the sentinels of a type 4 message are raw values with a class. -/
theorem test_msg4_sentinels :
    (stateOf (exec (.msg4 mctx 168
        { repeatInd := 0#2, mmsi := 1#30, year := 0#14, month := 0#4, day := 0#5, hour := 24#5, minute := 60#6, second := 61#6
          accuracy := 0#1, lon := 0x6791AC0#28, lat := 0x3412140#27, epfd := 0#4 }) State.reset)).map State.out =
      some [.decoded 0#64 mctx.info 0 168 (.baseStation
        { type := 4, repeatInd := 0, mmsi := 1, year := 0, month := 0, day := 0, hour := 24, minute := 60, second := 61
          secondClass := .manual, accuracy := false, lon := 108600000, lonClass := .unavailable, lat := 54600000
          latClass := .unavailable, epfd := 0 })] := by decide

/-- 44_field_extractor.md R221: interior padding is kept, trailing padding of both kinds is removed. -/
theorem test_msg5_text : text 7 (BitVec.ofNat 42 0b000001000000100000000010000000100000000000) = ascii ['A', '@', ' ', 'B'] := by decide

/-- The first step from reset of each row's table word performs the operation it stands in. -/
theorem test_first_step :
    (stateOf (step (State.reset.withFetchWord 48 0x56444D))).map (fun s => s.out.length) = some 1 ∧
    (stateOf (step (State.reset.withFetchWord 6 4))).map (fun s => typesOf s.out) = some [4] ∧
    stateOf (step (State.reset.withFetchWord 8 0)) = some State.reset := by decide

/-! ### Witnesses: for the hypotheses of every statement that has some -/

theorem witness_ResetLoadsConfigurationAndEmptiesTable : 1 ≤ (some 1 : Option Nat).getD 16 ∧ 1 ≤ (none : Option Nat).getD 16 := by
  decide

theorem witness_SecondResetLeavesNoTraceOfTheFirst :
    ∃ u, exec (.reset (some 3) (some 0#64)) pending1 = .next u ∧ 1 ≤ (some 1 : Option Nat).getD 16 := ⟨_, rfl, by decide⟩

theorem witness_EngineHasNoStateBeforeReset : 1 ≤ (some 1 : Option Nat).getD 16 := by decide

theorem witness_StepPerformsThePresentedOperation :
    State.reset.inbox = [] ∧
    decode State.reset.build (.operation { code := 2#8, operands := [.tick 0#64] }) = .ok (.tick 0#64) ∧
    decode State.reset.build (.operation { code := 3#8, operands := [] }) = .error (.unknownOpCode 3#8) ∧
    decode State.reset.build (.operation { code := 2#8, operands := [] }) = .error (.wrongOperands 2#8) := ⟨rfl, rfl, rfl, rfl⟩

theorem witness_IdleEvictionReportsOnce : ∃ t, exec (.tick 6001#64) pending1 = .next t ∧ t.out ≠ [] := ⟨_, rfl, by decide⟩

theorem witness_TickRemovesAGroupExactlyWhenAged :
    tableWf pending1.groups = true ∧ lookup keyA1 pending1.groups = some group1 ∧
    5000 < (6001#64).toNat - group1.lastActivity.toNat ∧ ¬ 5000 < (6000#64).toNat - group1.lastActivity.toNat := by decide

theorem witness_UnparsedLineCostsOneErrorRecord :
    parse State.reset.build (ascii ['!', '*', '0', '0']) = .error (.malformed .fieldCount) := by rfl

theorem witness_FeedRunsTheSentenceItsLineSpells :
    ∃ i, decode State.reset.build (.sentence { lineNo := 0#64, raw := v1, now := 0#64 } v1) = .ok i :=
  ⟨.vdm { lineNo := 0#64, raw := v1, now := 0#64 }
    { start := .bang, talker1 := 0x41#8, talker2 := 0x49#8, count := 1, number := 1, seqEmpty := true, seq := 0
      channel := chA, payload := payload1, fill := 0, checksum := 0x23#8 }, by decide⟩

/-- A one-fragment sentence whose payload is 143 bits of type 1. -/
def whole1 : SentenceFields := { f1 with count := 1, payload := armorEncode (word 6 0b000001 ++ positionWord), fill := 1 }

theorem witness_SentenceRunsTheMessageItsPayloadSpells :
    whole1.count = 1 ∧ armorDecode whole1.payload whole1.fill = .ok (word 6 0b000001 ++ positionWord) ∧
    ∃ i, decode ref (.message mctx (word 6 0b000001 ++ positionWord)) = .ok i := by
  refine ⟨rfl, by decide, .msg1 mctx 143 positionValues, by decide⟩

theorem witness_SingleFragmentBypassesTheTable : whole1.count = 1 := rfl

theorem witness_FirstFragmentOpensAGroup :
    2 ≤ f2.count ∧ 1 ≤ f2.number ∧ f2.number ≤ f2.count ∧ lookup (keyOf f2) State.reset.groups = none ∧
    State.reset.groups.length < State.reset.cfgMaxGroups := by decide

theorem witness_FullTableEvictsTheStalestGroup :
    let s : State := { pending1 with cfgMaxGroups := 1 }
    let f : SentenceFields := { f2 with seq := 2 }
    2 ≤ f.count ∧ 1 ≤ f.number ∧ f.number ≤ f.count ∧ lookup (keyOf f) s.groups = none ∧ s.groups ≠ [] ∧
    s.cfgMaxGroups ≤ s.groups.length := by decide

/-- A group of three with fragment 2 pending. -/
def group3 : Machine.Group := { count := 3, slots := [none, some (slotOf f2), none], lastActivity := 1000#64 }
def pending3 : State := { State.reset with groups := [(keyA1, group3)] }

/-- Fragment 1 joins; fragment 2 overwrites. -/
theorem witness_FragmentJoinsItsPendingGroup :
    (let f := frag 3 1 (ascii ['1']) 0
     2 ≤ f.count ∧ 1 ≤ f.number ∧ f.number ≤ f.count ∧ lookup (keyOf f) pending3.groups = some group3 ∧ group3.count = f.count ∧
     (f.number = 1 → slotAt group3 1 = none) ∧ group3.slots.length = group3.count ∧
     1 ≤ 3 ∧ 3 ≤ group3.count ∧ 3 ≠ f.number ∧ slotAt group3 3 = none) ∧
    (let f := frag 3 2 (ascii ['1']) 0
     2 ≤ f.count ∧ 1 ≤ f.number ∧ f.number ≤ f.count ∧ lookup (keyOf f) pending3.groups = some group3 ∧ group3.count = f.count ∧
     (f.number = 1 → slotAt group3 1 = none) ∧ 1 ≤ 1 ∧ 1 ≤ group3.count ∧ 1 ≠ f.number ∧ slotAt group3 1 = none) := by decide

/-- Fragment 2 completes after fragment 1, and fragment 1 after fragment 2. -/
theorem witness_LastFragmentCompletesTheMessage :
    (2 ≤ f2.count ∧ 1 ≤ f2.number ∧ f2.number ≤ f2.count ∧ lookup (keyOf f2) pending1.groups = some group1 ∧
     group1.count = f2.count ∧ (f2.number = 1 → slotAt group1 1 = none) ∧ [slotOf f1].length + 1 = group1.count ∧
     group1.slots.set (f2.number - 1) (some { payload := f2.payload, fill := f2.fill }) = ([slotOf f1] ++ [slotOf f2]).map some) ∧
    (lookup (keyOf f1) pending2.groups = some group2 ∧ group2.count = f1.count ∧ (f1.number = 1 → slotAt group2 1 = none) ∧
     group2.slots.set (f1.number - 1) (some { payload := f1.payload, fill := f1.fill }) =
       ([slotOf f1] ++ [slotOf f2]).map some) := by decide

/-- A count mismatch, and a second fragment 1, in a full table. -/
theorem witness_SupersessionIsSilent :
    (let s : State := { pending1 with cfgMaxGroups := 1 }
     let f := frag 3 3 (ascii ['1']) 0
     2 ≤ f.count ∧ 1 ≤ f.number ∧ f.number ≤ f.count ∧ s.groups.length ≤ s.cfgMaxGroups ∧ lookup (keyOf f) s.groups = some group1 ∧
     group1.count ≠ f.count) ∧
    (let s : State := { pending1 with cfgMaxGroups := 1 }
     2 ≤ f1.count ∧ 1 ≤ f1.number ∧ f1.number ≤ f1.count ∧ s.groups.length ≤ s.cfgMaxGroups ∧
     lookup (keyOf f1) s.groups = some group1 ∧ f1.number = 1 ∧ (slotAt group1 1).isSome = true) := by decide

/-- Fragment 2 and then fragment 1. -/
theorem witness_ReassemblyIsOrderInsensitive :
    2 ≤ 2 ∧ lookup keyA1 State.reset.groups = none ∧ (∀ x ∈ [(f2, 5#64), (f1, 6#64)], keyOf x.1 = keyA1 ∧ x.1.count = 2) ∧
    ([(f2, 5#64), (f1, 6#64)].map Prod.fst).Perm ([f1] ++ [f2]) ∧
    ([f1] ++ [f2]).map SentenceFields.number = List.range' 1 2 := by decide

theorem reset_meets_StateInv : StateInv State.reset := ⟨by decide, by decide, by decide, by decide⟩

/-- A state with a pending group meets the invariant, and a step takes it on. -/
theorem witness_EveryStepKeepsTheInvariant :
    StateInv { pending1 with inbox := [{ code := 2#8, operands := [.tick 6001#64] }] } ∧
    ∃ t, step { pending1 with inbox := [{ code := 2#8, operands := [.tick 6001#64] }] } = .next t :=
  ⟨⟨by decide, by decide, by decide, by decide⟩, _, rfl⟩

/-- A finite P_MAX_LINE of 82, with a payload of 60 bytes stored. -/
theorem witness_StoredPayloadsStayBounded :
    let s : State := { pending1 with build := { Build.reference with maxLine := some 82 } }
    StateInv s ∧ slotsBounded s ∧ s.build.maxLine = some 82 := by
  refine ⟨⟨by decide, by decide, by decide, by decide⟩, ?_, rfl⟩
  intro n hn e he slot hslot x hx
  simp only [Option.some.injEq] at hn
  subst hn
  simp only [pending1, List.mem_singleton] at he
  subst he
  simp only [group1, List.mem_cons, List.not_mem_nil, or_false] at hslot
  rcases hslot with rfl | rfl
  · cases hx; decide
  · cases hx

theorem witness_TerminatorsDoNotMatter : ∀ c ∈ [0x0D#8, 0x0A#8, 0x0A#8], c = 0x0D#8 ∨ c = 0x0A#8 := by decide

/-- A body without a star, between a start byte and its right checksum, is framed. -/
def framedLine (body : Line) : Line := 0x21#8 :: body ++ 0x2A#8 :: hexDigits (xorBytes body)

theorem framed_framedLine (body : Line) (h : 0x2A#8 ∉ body) :
    framed ref (framedLine body) 0x21#8 body (body.foldl (· ^^^ ·) 0#8) := by
  obtain ⟨h1, h2, v1, v2, he, g1, g2, g3⟩ := hexPair_eq_some.1 (hexPair_hexDigits (xorBytes body))
  refine ⟨h1, h2, v1, v2, [], by simp [framedLine, he], by simp, .inl rfl, fun c hc hs => h (hs ▸ hc), ?_,
    hexVal_eq_some.1 g1, hexVal_eq_some.1 g2, g3⟩
  intro n hn
  simp [ref, Build.reference] at hn

/-- V2's line is framed, and its checksum is wrong by one. -/
theorem witness_WrongChecksumIsAlwaysReported :
    framed ref v2 0x21#8 region1
      0x22#8 ∧
    region1.foldl (· ^^^ ·) 0#8 ≠ 0x22#8 := by
  refine ⟨⟨0x32#8, 0x32#8, 2, 2, [], by decide, by simp, .inl rfl, by decide, ?_, .inl ⟨by decide, by decide⟩,
    .inl ⟨by decide, by decide⟩, by decide⟩, by decide⟩
  intro n hn
  simp [ref, Build.reference] at hn

/-- Each framing clause: a length of one over P_MAX_LINE, no start byte, the empty line, no star, one and three digits, no hex digit. -/
theorem witness_FramingChecksComeInOrder :
    (∀ line ∈ [v1, ascii ['A', 'I', '*', '0', '0'], [], ascii ['!', 'A', 'I'], ascii ['!', 'A', '*', '2'],
               ascii ['!', 'A', '*', '2', '3', '0'], ascii ['!', 'A', '*', 'G', '3']],
      ∀ c, line.getLast? = some c → c ≠ 0x0D#8 ∧ c ≠ 0x0A#8) ∧
    46 < v1.length ∧ (ascii ['A', 'I', '*', '0', '0']).head? ≠ some 0x21#8 ∧
    (ascii ['A', 'I', '*', '0', '0']).head? ≠ some 0x24#8 ∧
    ([] : Line).head? ≠ some 0x21#8 ∧ 0x2A#8 ∉ ascii ['!', 'A', 'I'] ∧
    (∀ rest ∈ [ascii ['2'], ascii ['2', '3', '0']], ¬ ∃ h1 h2 v1 v2, rest = [h1, h2] ∧ spellsHex h1 v1 ∧ spellsHex h2 v2) ∧
    ¬ (∃ h1 h2 v1 v2, ascii ['G', '3'] = [h1, h2] ∧ spellsHex h1 v1 ∧ spellsHex h2 v2) ∧
    ascii ['!', 'A', '*', '2'] = ascii ['!', 'A'] ++ 0x2A#8 :: ascii ['2'] := by
  refine ⟨by simp; decide, by decide, by decide, by decide, by decide, by decide, ?_, ?_, by decide⟩
  · intro rest hr
    simp only [List.mem_cons, List.not_mem_nil, or_false] at hr
    rintro ⟨h1, h2, v1, v2, he, -⟩
    have hl : rest.length = 2 := by rw [he]; rfl
    rcases hr with rfl | rfl <;> revert hl <;> decide
  · rintro ⟨h1, h2, v1, v2, he, hx, -⟩
    have h1e : h1 = 0x47#8 := by
      have : some h1 = (ascii ['G', '3']).head? := by rw [he]; rfl
      exact Option.some.inj (this.trans (by decide))
    subst h1e
    simp only [spellsHex, BitVec.toNat_ofNat] at hx
    omega

/-- Seven fields with the given count, number, sequential id, channel and fill. -/
def sevenFields (f0 f1 f2 f3 f4 f6 : List Char) : List Line :=
  [ascii f0, ascii f1, ascii f2, ascii f3, ascii f4, ascii ['1'], ascii f6]

/-- The premises common to every clause of the field checks, for fields that start with `!`. -/
def fieldPremises (fields : List Line) : Prop :=
  ∃ body, framed ref (framedLine body) 0x21#8 body (body.foldl (· ^^^ ·) 0#8) ∧ fields ≠ [] ∧
    (∀ f ∈ fields, 0x2C#8 ∉ f) ∧ 0x21#8 :: body = List.intercalate [0x2C#8] fields

theorem fieldPremises_of (fields : List Line)
    (h : 0x21#8 :: (List.intercalate [0x2C#8] fields).tail = List.intercalate [0x2C#8] fields ∧
      0x2A#8 ∉ (List.intercalate [0x2C#8] fields).tail ∧ fields ≠ [] ∧ ∀ f ∈ fields, 0x2C#8 ∉ f) : fieldPremises fields :=
  ⟨_, framed_framedLine _ h.2.1, h.2.2.1, h.2.2.2, h.1⟩

/-- The address `!AIVDM`. -/
def aivdm : List Char := ['!', 'A', 'I', 'V', 'D', 'M']

theorem isAddress_AIVDM : isAddress (ascii aivdm) :=
  ⟨0x21#8, 0x41#8, 0x49#8, 0x4D#8, by decide, .inl rfl, by decide, by decide, .inl rfl⟩

theorem spells_1_2_9 :
    spellsDecimal (ascii ['1']) 1 ∧ spellsDecimal (ascii ['2']) 2 ∧ spellsDecimal (ascii ['9']) 9 ∧
    spellsDecimal (ascii ['0', '9']) 9 :=
  ⟨⟨by decide, by decide, by decide⟩, ⟨by decide, by decide, by decide⟩, ⟨by decide, by decide, by decide⟩,
    ⟨by decide, by decide, by decide⟩⟩

/-- Field count: six fields and one. -/
theorem witness_FieldChecksComeInOrder_count :
    fieldPremises [ascii aivdm, ascii ['1'], ascii ['1'], ascii ['A'], ascii ['1'], ascii ['0']] ∧
    fieldPremises [ascii ['!']] :=
  ⟨fieldPremises_of _ (by decide), fieldPremises_of _ (by decide)⟩

/-- Address: `VDX`, and a lower-case talker. -/
theorem witness_FieldChecksComeInOrder_address :
    fieldPremises (sevenFields ['!', 'A', 'I', 'V', 'D', 'X'] ['1'] ['1'] [] ['A'] ['0']) ∧
    ¬ isAddress (ascii ['!', 'A', 'I', 'V', 'D', 'X']) ∧ ¬ isAddress (ascii ['!', 'a', 'I', 'V', 'D', 'M']) := by
  refine ⟨fieldPremises_of _ (by decide), ?_, ?_⟩
  · rintro ⟨s, t1, t2, x, he, -, -, -, h⟩
    cases he
    revert h; decide
  · rintro ⟨s, t1, t2, x, he, -, h, -⟩
    cases he
    revert h; decide

/-- Count: 0 and 10. -/
theorem witness_FieldChecksComeInOrder_badCount :
    fieldPremises (sevenFields aivdm ['0'] ['1'] [] ['A'] ['0']) ∧
    fieldPremises (sevenFields aivdm ['1', '0'] ['1'] [] ['A'] ['0']) ∧
    ∀ t ∈ [ascii ['0'], ascii ['1', '0']], ∀ n, spellsDecimal t n → n < 1 ∨ ref.maxFragments < n := by
  refine ⟨fieldPremises_of _ (by decide), fieldPremises_of _ (by decide), ?_⟩
  intro t ht n hn
  simp only [List.mem_cons, List.not_mem_nil, or_false] at ht
  rcases ht with rfl | rfl
  · rw [hn.2.2]; decide
  · rw [hn.2.2]; decide

/-- Number: 0, and one over a count of 1. -/
theorem witness_FieldChecksComeInOrder_number :
    fieldPremises (sevenFields aivdm ['1'] ['0'] [] ['A'] ['0']) ∧ (∀ k, spellsDecimal (ascii ['0']) k → k < 1) ∧
    fieldPremises (sevenFields aivdm ['1'] ['2'] [] ['A'] ['0']) ∧
    (1 < 2 ∧ 1 ≤ ref.maxFragments ∧ 9 ≤ ref.maxFragments) := by
  refine ⟨fieldPremises_of _ (by decide), ?_,
    fieldPremises_of _ (by decide), by decide⟩
  intro k hk
  rw [hk.2.2]; decide

/-- Sequential id 10; two channel bytes; fill 6, with number 9 of 9 and sequential id 09. -/
theorem witness_FieldChecksComeInOrder_last :
    fieldPremises (sevenFields aivdm ['9'] ['9'] ['1', '0'] ['A'] ['0']) ∧
    (∀ q, spellsDecimal (ascii ['1', '0']) q → ref.seqIdMax < q) ∧
    fieldPremises (sevenFields aivdm ['9'] ['9'] ['0', '9'] ['A', 'B'] ['0']) ∧
    (spellsDecimal (ascii ['0', '9']) 9 ∧ 9 ≤ ref.seqIdMax) ∧
    1 < (ascii ['A', 'B']).length ∧
    fieldPremises (sevenFields aivdm ['9'] ['9'] [] [] ['6']) ∧
    ¬ (∃ d : Nat, d ≤ 5 ∧ ascii ['6'] = [BitVec.ofNat 8 (0x30 + d)]) := by
  refine ⟨fieldPremises_of _ (by decide), ?_,
    fieldPremises_of _ (by decide), ⟨spells_1_2_9.2.2.2, by decide⟩, by decide,
    fieldPremises_of _ (by decide), ?_⟩
  · intro q hq
    rw [hq.2.2]; decide
  · rintro ⟨d, hd, he⟩
    have : d = 0 ∨ d = 1 ∨ d = 2 ∨ d = 3 ∨ d = 4 ∨ d = 5 := by omega
    rcases this with rfl | rfl | rfl | rfl | rfl | rfl <;> revert he <;> decide

theorem witness_ArmorRoundTrip : 1 ≤ (word 1 0b0).length := by decide

/-- 95_test_vectors.md A2 to A5, A8 to A11: the edges of the two ranges. -/
theorem witness_ArmorAlphabetHasTwoRanges :
    armorValue 0x30#8 = some 0#6 ∧ armorValue 0x57#8 = some 39#6 ∧ armorValue 0x60#8 = some 40#6 ∧ armorValue 0x77#8 = some 63#6 ∧
    armorValue 0x58#8 = none ∧ armorValue 0x5F#8 = none ∧ armorValue 0x2F#8 = none ∧ armorValue 0x78#8 = none := by decide

/-- 95_test_vectors.md A1. -/
theorem witness_ArmorBitsAreMostSignificantFirst :
    (ascii ['1', 'w']).map armorValue = [1#6, 63#6].map some ∧ armorDecode (ascii ['1', 'w']) 2 = .ok (word 10 0b0000011111) :=
  ⟨by decide, by decide⟩

/-- 95_test_vectors.md A13. -/
theorem witness_LowestInvalidArmorByteIsReported :
    (∀ c ∈ ascii ['1', 'w'], (armorValue c).isSome = true) ∧ armorValue 0x58#8 = none := by decide

theorem witness_FillBitsAreNotInspected : (63#6).toNat / 2 ^ (1 : Fin 6).val = (62#6).toNat / 2 ^ (1 : Fin 6).val := by decide

/-- Five bits; types 0 and 6; and each layout one bit short. -/
theorem witness_ShortAndUnsupportedMessagesAreReported :
    (armorDecode (ascii ['1']) 1 = .ok (word 5 0b00000)) ∧
    (armorDecode (ascii ['0']) 0 = .ok (word 6 0b000000) ∧ U (word 6 0b000000) 0 6 = 0) ∧
    (armorDecode (ascii ['6']) 0 = .ok (word 6 0b000110) ∧ U (word 6 0b000110) 0 6 = 6) ∧
    (∀ x ∈ [(1, 143), (2, 143), (3, 143), (4, 138), (5, 422)],
      (padBits (x.2 - 1) (bitsOf (BitVec.ofNat 6 x.1))).length = x.2 - 1 ∧
      U (padBits (x.2 - 1) (bitsOf (BitVec.ofNat 6 x.1))) 0 6 = x.1 ∧
      errorOf (armorDecode (armorEncode (padBits (x.2 - 1) (bitsOf (BitVec.ofNat 6 x.1)))) (fillFor (x.2 - 1))) = none) :=
  ⟨by decide, by decide, by decide, by decide⟩

theorem witness_PositionFieldsStandAtTheirBits :
    ∀ t ∈ [word 6 0b000001, word 6 0b000010, word 6 0b000011], 143 ≤ (t ++ positionWord).length ∧
      (U (t ++ positionWord) 0 6 = 1 ∨ U (t ++ positionWord) 0 6 = 2 ∨ U (t ++ positionWord) 0 6 = 3) := by
  decide

theorem witness_BaseStationFieldsStandAtTheirBits :
    138 ≤ baseStationWord.length ∧ U baseStationWord 0 6 = 4 := by decide

theorem witness_StaticFieldsStandAtTheirBits :
    422 ≤ staticWord.length ∧ U staticWord 0 6 = 5 := by decide

theorem witness_PositionMessagesEmitTheirReport :
    (Instr.msg1 mctx 143 positionValues = .msg1 mctx 143 positionValues ∧ (1 : Nat) = 1) := by decide

theorem witness_TextIsTrimmedOfTrailingPadding : 70 + 6 * 7 ≤ staticWord.length := by decide

/-- Instructions of the three levels, at the least bitstream length of each layout. -/
theorem witness_DecodingAnEncodingGivesItBack :
    ∀ i ∈ [Instr.reset (some 1) none, .feed v1 0#64, .tick 0#64, .vdm (ctx 0) { f2 with checksum := 0x25#8 },
           .vdo (ctx 0) { f2 with checksum := 0x27#8 }, .msg1 mctx 143 positionValues, .msg2 mctx 143 positionValues,
           .msg3 mctx 143 positionValues, .msg4 mctx 138 (baseStationFields baseStationWord),
           .msg5 mctx 422 (staticFields staticWord)],
      i.wellFormed ref = true ∧ i.canonical ref = true := by decide

theorem witness_DecodedInstructionsAreWellFormed :
    instrOf (decode ref (.operation { code := 0#8, operands := [.nat 1, .absent] })) = some (.reset (some 1) none) ∧
    ([.nat 1, .absent] : List Operand).head? ≠ some (.nat 0) := by decide

theorem witness_EnginesDoNotInterfere :
    ∃ a b, (0 : Nat) ≠ 1 ∧
      Fleet.stepAt 0 [{ pending1 with inbox := [{ code := 2#8, operands := [.tick 6001#64] }] }, pending2] = .next a ∧
      Fleet.stepAt 1 [{ pending1 with inbox := [{ code := 2#8, operands := [.tick 6001#64] }] }, pending2] = .next b :=
  ⟨_, _, by decide, rfl, rfl⟩

/-! Records, late fragments and interleaved messages -/

/-- A fragment with the one-byte payload `1`, under the key of the fragments above. -/
def short (count number : Nat) : SentenceFields := frag count number (ascii ['1']) 0

/-- The fragment with the checksum of its own line. -/
def summed (sid : Sid) (f : SentenceFields) : SentenceFields := { f with checksum := xorBytes (sentenceRegion sid f) }

/-- A FEED of a VDM fragment. -/
def feedOf (f : SentenceFields) (now : Nat) : Instr := .feed (sentenceLine .vdm f) (BitVec.ofNat 64 now)

/-- A TICK that evicts, a FEED that evicts and buffers. -/
theorem witness_RecordsListTheFilledSlots :
    (stateOf (exec (.tick 6001#64) pending1)).map State.out = some [.evicted 3 .idle keyA1 2 [1] 1000#64] ∧
    (stateOf (exec (feedOf (short 2 2) 6001) pending1)).map State.out =
      some [.evicted 3 .idle keyA1 2 [1] 1000#64, .buffered 0#64 keyA1 2 [2]] := by decide

theorem parse_short22 : parse ref (sentenceLine .vdm (short 2 2)) = .ok { sid := .vdm, fields := summed .vdm (short 2 2) } := by decide

/-- A late fragment 2, just over the threshold, and one just under it. -/
theorem witness_AgedGroupIsGoneBeforeTheLine :
    tableWf pending1.groups = true ∧ lookup keyA1 pending1.groups = some group1 ∧
    (∀ now, ∃ i, decode pending1.build
      (.sentence { lineNo := pending1.feedCount, raw := sentenceLine .vdm (short 2 2), now := now }
        (sentenceLine .vdm (short 2 2))) = .ok i) ∧
    ¬ 5000 < (6000#64).toNat - group1.lastActivity.toNat ∧ 5000 < (6001#64).toNat - group1.lastActivity.toNat := by
  refine ⟨by decide, by decide, fun now => ?_, by decide, by decide⟩
  have h : parse pending1.build (sentenceLine .vdm (short 2 2)) = _ := parse_short22
  exact ⟨_, by simp only [decode, h]; rfl⟩

theorem witness_LateFragmentStartsANewGroup :
    tableWf pending1.groups = true ∧ lookup (keyOf (summed .vdm (short 2 2))) pending1.groups = some group1 ∧
    pending1.cfgIdleTicks.toNat < (6001#64).toNat - group1.lastActivity.toNat ∧ (summed .vdm (short 2 2)).count ≠ 1 ∧
    decode pending1.build
        (.sentence { lineNo := pending1.feedCount, raw := sentenceLine .vdm (short 2 2), now := 6001#64 }
          (sentenceLine .vdm (short 2 2))) =
      .ok (sentence .vdm { lineNo := pending1.feedCount, raw := sentenceLine .vdm (short 2 2), now := 6001#64 }
        (summed .vdm (short 2 2))) := by
  refine ⟨by decide, by decide, by decide, by decide, ?_⟩
  have h : parse pending1.build (sentenceLine .vdm (short 2 2)) = _ := parse_short22
  simp only [decode, h]; rfl

/-- The bits of both payloads of V31, without the two fill bits. -/
def bits31 : Bits := ((payload2 ++ payload3).flatMap (fun c => bitsOf ((armorValue c).getD 0))).take 424

/-- 95_test_vectors.md V31: the static-data pair, which spells a type 5 message in two fragments. -/
theorem witness_CompletedMessageRunsTheMessageItSpells :
    2 ≤ f2.count ∧ 1 ≤ f2.number ∧ f2.number ≤ f2.count ∧ lookup (keyOf f2) pending1.groups = some group1 ∧
    group1.count = f2.count ∧ (f2.number = 1 → slotAt group1 1 = none) ∧ [slotOf f1].length + 1 = group1.count ∧
    group1.slots.set (f2.number - 1) (some { payload := f2.payload, fill := f2.fill }) = ([slotOf f1] ++ [slotOf f2]).map some ∧
    armorDecode (([slotOf f1] ++ [slotOf f2]).flatMap Slot.payload) (slotOf f2).fill = .ok bits31 ∧
    ∃ i, decode ref (.message
      { lineNo := 7#64, info := metaOf { sid := .vdm, fields := f2 }, fillUsed := (slotOf f2).fill } bits31) =
        .ok i := by
  refine ⟨by decide, by decide, by decide, by decide, by decide, by decide, by decide, by decide, by decide, ?_⟩
  exact ⟨.msg5 { lineNo := 7#64, info := metaOf { sid := .vdm, fields := f2 }, fillUsed := (slotOf f2).fill } 424
    (staticFields bits31), by decide⟩

/-- Fragment 2, a TICK, a fragment of another message, a single-fragment line, fragment 1, and fragment 2 of yet another message; from
a table with room for two groups. -/
def mixedOps : List Instr :=
  [feedOf (short 2 2) 10, .tick 20#64, feedOf { short 3 1 with seq := 2 } 30, feedOf (short 1 1) 30, feedOf (short 2 1) 5010,
   feedOf { short 3 2 with seq := 3 } 5020]

theorem witness_InterleavedFragmentsCompleteTheMessage :
    let s : State := { State.reset with cfgMaxGroups := 2 }
    tableWf s.groups = true ∧ 2 ≤ 2 ∧ lookup keyA1 s.groups = none ∧
    ((mixedOps.filterMap (fragmentOf s.build keyA1)).map RawSentence.fields).Perm
      ([summed .vdm (short 2 1)] ++ [summed .vdm (short 2 2)]) ∧
    (∀ f ∈ [summed .vdm (short 2 1)] ++ [summed .vdm (short 2 2)], f.count = 2) ∧
    ([summed .vdm (short 2 1)] ++ [summed .vdm (short 2 2)]).map SentenceFields.number = List.range' 1 2 ∧
    (∀ r ∈ recordsOf mixedOps s, evictsKey keyA1 r = false) ∧
    (∀ i ∈ [0, 4], ((mixedOps[i]?).bind (fragmentOf s.build keyA1)).isSome = true) := by decide

/-- Every operation of the list is a FEED or a TICK. -/
theorem witness_InterleavedFragmentsCompleteTheMessage_ops :
    ∀ i ∈ mixedOps, (∃ now, i = .tick now) ∨ ∃ line now, i = .feed line now := by
  intro i hi
  simp only [mixedOps, feedOf, List.mem_cons, List.not_mem_nil, or_false] at hi
  rcases hi with rfl | rfl | rfl | rfl | rfl | rfl
  · exact .inr ⟨_, _, rfl⟩
  · exact .inl ⟨_, rfl⟩
  · exact .inr ⟨_, _, rfl⟩
  · exact .inr ⟨_, _, rfl⟩
  · exact .inr ⟨_, _, rfl⟩
  · exact .inr ⟨_, _, rfl⟩

end Sys2Proof.Tests
end

/-! SUPPORT. Family 10_state.md: what a line that parses is in range of, the invariant of R29 under each operation, and the
obligations of the state. -/

namespace Sys2Proof

/-! ### What a parsed line says (R120 to R139) -/

/-- The field checks pass exactly when each of the seven fields is read and the number is within the count (R129 to R137). -/
theorem parseFields_eq_ok {b : Build} {fr : Frame} {fields : List Line} {r : RawSentence} :
    parseFields b fr fields = .ok r ↔
      ∃ f0 f1 f2 f3 f4 f6, fields = [f0, f1, f2, f3, f4, r.fields.payload, f6] ∧
        addressOf f0 = some (r.fields.talker1, r.fields.talker2, r.sid) ∧
        countOf b f1 = some r.fields.count ∧ numberOf f2 = some r.fields.number ∧ r.fields.number ≤ r.fields.count ∧
        seqOf b f3 = some (r.fields.seqEmpty, r.fields.seq) ∧ channelOf f4 = some r.fields.channel ∧
        fillOf f6 = some r.fields.fill ∧ r.fields.start = fr.start ∧ r.fields.checksum = fr.supplied := by
  constructor
  · fun_cases parseFields b fr fields with
    | case8 f0 f1 f2 f3 f4 f5 f6 t1 t2 sid ha n hn k hk hle seqEmpty seq hs ch hc fill hf =>
      rintro ⟨⟩
      exact ⟨f0, f1, f2, f3, f4, f6, rfl, ha, hn, hk, Nat.le_of_not_lt hle, hs, hc, hf, rfl, rfl⟩
    | _ => nofun
  · obtain ⟨sid, f⟩ := r
    rintro ⟨f0, f1, f2, f3, f4, f6, rfl, ha, hn, hk, hle, hs, hc, hf, hstart, hsum⟩
    simp only at ha hn hk hle hs hc hf hstart hsum
    simp [parseFields, ha, hn, hk, hs, hc, hf, Nat.not_lt.2 hle, ← hstart, ← hsum]

/-- A line parses exactly when it is framed, its checksum agrees and its fields pass (R120, R139). -/
theorem parse_eq_ok {b : Build} {line : Line} {r : RawSentence} :
    parse b line = .ok r ↔
      ∃ fr, frame b line = .ok fr ∧ xorBytes fr.region = fr.supplied ∧
        parseFields b fr (splitAtByte 0x2C#8 (startByte fr.start :: fr.region)) = .ok r := by
  unfold parse
  cases frame b line with
  | error e => simp
  | ok fr => by_cases hsum : xorBytes fr.region = fr.supplied <;> simp [hsum]

theorem countOf_range {b : Build} {f : Line} {n : Nat} (h : countOf b f = some n) : 1 ≤ n ∧ n ≤ b.maxFragments := by
  unfold countOf at h
  split at h
  · cases h
  · split at h <;> cases h
    assumption

theorem numberOf_pos {f : Line} {k : Nat} (h : numberOf f = some k) : 1 ≤ k := by
  unfold numberOf at h
  split at h
  · cases h
  · split at h <;> cases h
    assumption

theorem seqOf_le {b : Build} {f : Line} {empty : Bool} {q : Nat} (h : seqOf b f = some (empty, q)) : q ≤ b.seqIdMax := by
  unfold seqOf at h
  split at h
  · cases h
    exact Nat.zero_le _
  · split at h
    · cases h
    · split at h <;> cases h
      assumption

/-- The numbers of a sentence are in the ranges of R65 and R66: what the group table's invariant needs of a fragment. -/
structure NumbersInRange (b : Build) (f : SentenceFields) : Prop where
  count_le  : f.count ≤ b.maxFragments
  number_ge : 1 ≤ f.number
  number_le : f.number ≤ f.count
  seq_le    : f.seq ≤ b.seqIdMax

theorem numbersInRange_of_parse {b : Build} {line : Line} {r : RawSentence} (h : parse b line = .ok r) :
    NumbersInRange b r.fields := by
  obtain ⟨fr, -, -, hf⟩ := parse_eq_ok.1 h
  obtain ⟨_, _, _, _, _, _, -, -, hcount, hnumber, hle, hseq, -⟩ := parseFields_eq_ok.1 hf
  exact ⟨(countOf_range hcount).2, numberOf_pos hnumber, hle, seqOf_le hseq⟩

end Sys2Proof

namespace Sys2Proof.Machine

/-! ### The invariant of a group (R29) -/

/-- A group as R29 has it, its empty slot said as "not complete" (R157). -/
theorem groupInv_iff {b : Build} {g : Group} :
    groupInv b g = true ↔
      2 ≤ g.count ∧ g.count ≤ b.maxFragments ∧ g.slots.length = g.count ∧ g.slots.any Option.isSome = true ∧
        allFilled g = false := by
  simp [groupInv, allFilled, and_assoc]

/-- A fragment written into a group of legal shape leaves a group as R29 has it, if it does not complete it (R156). -/
theorem groupInv_writeSlot {b : Build} {f : SentenceFields} {g : Group} (now : Tick) (hmin : 2 ≤ g.count)
    (hmax : g.count ≤ b.maxFragments) (hlen : g.slots.length = g.count) (hnum : 1 ≤ f.number) (hle : f.number ≤ g.count)
    (hopen : allFilled (writeSlot f now g) = false) : groupInv b (writeSlot f now g) = true := by
  have hwritten : some (slotOf f) ∈ (writeSlot f now g).slots := List.mem_set (by omega) _
  exact groupInv_iff.2 ⟨hmin, hmax, by simpa using hlen, List.any_eq_true.2 ⟨_, hwritten, rfl⟩, hopen⟩

theorem entryInv_iff {b : Build} {k : Key} {g : Group} :
    entryInv b (k, g) = true ↔ groupInv b g = true ∧ k.seq ≤ b.seqIdMax := by
  simp [entryInv]

/-! ### The invariant under the table's operations -/

/-- An empty table within a legal capacity meets the invariant (R31). -/
theorem stateInv_of_empty {s : State} (h : s.groups = []) (hcap : 1 ≤ s.cfgMaxGroups) : StateInv s :=
  ⟨by simp [h, tableWf], by simp [h], hcap, by simp [h]⟩

/-- Whatever only takes groups out of the table keeps the invariant: eviction, removal, and all that leaves the table alone. -/
theorem StateInv.of_sublist {s t : State} (h : StateInv s) (hsub : t.groups.Sublist s.groups)
    (hcap : t.cfgMaxGroups = s.cfgMaxGroups) (hbuild : t.build = s.build) : StateInv t := by
  obtain ⟨hwf, hlen, hpos, hentry⟩ := h
  refine ⟨?_, ?_, hcap ▸ hpos, fun e he => hbuild ▸ hentry e (hsub.subset he)⟩
  · rw [tableWf_iff_pairwise] at *
    exact hwf.sublist hsub
  · rw [hcap]
    exact hsub.length_le.trans hlen

theorem StateInv.emit {s : State} (h : StateInv s) (r : Record) : StateInv (emit r s) :=
  h.of_sublist (List.Sublist.refl _) rfl rfl

theorem StateInv.beginOutput {s : State} (h : StateInv s) : StateInv (beginOutput s) :=
  h.of_sublist (List.Sublist.refl _) rfl rfl

theorem StateInv.evictIdle {s : State} (h : StateInv s) (now : Tick) : StateInv (evictIdle now s) :=
  h.of_sublist List.filter_sublist rfl rfl

theorem StateInv.beginFeed {s : State} (h : StateInv s) (now : Tick) : StateInv (beginFeed now s) :=
  h.of_sublist List.filter_sublist rfl rfl

theorem StateInv.remove {s : State} (h : StateInv s) (k : Key) : StateInv { s with groups := remove k s.groups } :=
  h.of_sublist List.filter_sublist rfl rfl

theorem StateInv.makeRoom {s : State} (h : StateInv s) : StateInv (makeRoom s) := by
  obtain ⟨caps, -, -, heq⟩ := makeRoom_frame s
  rw [heq]
  exact h.of_sublist List.filter_sublist rfl rfl

@[simp] theorem makeRoom_build (s : State) : (makeRoom s).build = s.build := by
  obtain ⟨caps, -, -, heq⟩ := makeRoom_frame s
  rw [heq]

@[simp] theorem makeRoom_cfgMaxGroups (s : State) : (makeRoom s).cfgMaxGroups = s.cfgMaxGroups := by
  obtain ⟨caps, -, -, heq⟩ := makeRoom_frame s
  rw [heq]

theorem StateInv.insert {s : State} (h : StateInv s) {k : Key} {g : Group}
    (hentry : entryInv s.build (k, g) = true) (hroom : (insert k g s.groups).length ≤ s.cfgMaxGroups) :
    StateInv { s with groups := insert k g s.groups } := by
  obtain ⟨hwf, -, hpos, hall⟩ := h
  refine ⟨tableWf_insert k g hwf, hroom, hpos, fun e he => ?_⟩
  rcases mem_insert he with rfl | he
  · exact hentry
  · exact hall e he

/-! ### The invariant under reassembly (R151 to R157) -/

/-- A written group is stored only while it is not complete, so the entry's invariant is needed only then. -/
theorem StateInv.closeGroup {s : State} (h : StateInv s) {k : Key} {g : Group}
    (hentry : allFilled g = false → entryInv s.build (k, g) = true)
    (hroom : (Machine.insert k g s.groups).length ≤ s.cfgMaxGroups) : StateInv (closeGroup k g s).1 := by
  cases hfull : allFilled g with
  | true =>
    rw [closeGroup_complete hfull]
    exact h.remove k
  | false =>
    rw [closeGroup_pending hfull]
    exact h.insert (hentry hfull) hroom

theorem StateInv.reassemble {s : State} (h : StateInv s) {f : SentenceFields} (hf : NumbersInRange s.build f)
    (hcount : 2 ≤ f.count) (now : Tick) : StateInv (reassemble f now s).1 := by
  rcases openGroup_cases f now s with ⟨g, hl, hjoin, heq⟩ | heq
  · have ⟨hwf, hlen, _, hall⟩ := h
    obtain ⟨hg, -⟩ := entryInv_iff.1 (hall _ (mem_of_lookup hl))
    obtain ⟨hmin, hmax, hslots, -, -⟩ := groupInv_iff.1 hg
    have hsame : g.count = f.count := (supersedes_eq_false.1 hjoin).1
    rw [heq]
    refine StateInv.closeGroup h (fun hopen => entryInv_iff.2 ⟨?_, hf.seq_le⟩) ?_
    · exact groupInv_writeSlot now hmin hmax hslots hf.number_ge (hsame ▸ hf.number_le) hopen
    · rwa [length_insert_of_lookup hwf hl]
  · have hremoved := h.remove (keyOf f)
    have ⟨_, hlen, hpos, _⟩ := hremoved
    have hroom := makeRoom_length hlen hpos
    rw [heq]
    refine StateInv.closeGroup hremoved.makeRoom (fun hopen => entryInv_iff.2 ⟨?_, ?_⟩) ?_
    · exact groupInv_writeSlot now hcount (by simpa using hf.count_le) (by simp) hf.number_ge hf.number_le hopen
    · simpa [keyOf] using hf.seq_le
    · exact (length_insert_le ..).trans (by simpa using hroom)

/-! ### The invariant under the operations (R102 to R108) -/

theorem runSentence_keeps_stateInv {c : FeedContext} {r : RawSentence} {s t : State} (h : StateInv s)
    (hr : NumbersInRange s.build r.fields) (hrun : runSentence c r s = .next t) : StateInv t := by
  obtain ⟨u, rec, heq, hu, -⟩ := runSentence_eq c r s
  cases heq.symm.trans hrun
  rcases hu with ⟨rfl, -⟩ | ⟨rfl, hne⟩
  · exact h.emit rec
  · have hcount : 2 ≤ r.fields.count := lt_of_le_of_ne (hr.number_ge.trans hr.number_le) hne.symm
    exact (h.reassemble hr hcount c.now).emit rec

theorem execFeed_keeps_stateInv {line : Line} {now : Tick} {s t : State} (h : StateInv s)
    (hrun : execFeed line now s = .next t) : StateInv t := by
  cases hp : parse s.build line with
  | error e =>
    cases (execFeed_of_error now hp).symm.trans hrun
    exact (h.beginFeed now).emit _
  | ok r =>
    rw [execFeed_of_sentence now hp] at hrun
    exact runSentence_keeps_stateInv (h.beginFeed now) (numbersInRange_of_parse hp) hrun

theorem execTick_keeps_stateInv {now : Tick} {s t : State} (h : StateInv s) (hrun : execTick now s = .next t) :
    StateInv t := by
  cases hrun
  exact h.beginOutput.evictIdle now

/-- A refused RESET keeps the state's invariant, and a valid one makes it hold whatever the state was (R102, R274). -/
theorem execReset_keeps_stateInv {m : Option Nat} {ticks : Option Tick} {s t : State} (h : StateInv s)
    (hrun : execReset m ticks s = .next t) : StateInv t := by
  unfold execReset at hrun
  split at hrun
  · cases hrun
    exact h.beginOutput
  · next hm =>
    cases hrun
    exact stateInv_of_empty rfl (Nat.le_of_not_lt hm)

theorem step_keeps_stateInv {s t : State} (h : StateInv s) (hstep : step s = .next t) : StateInv t := by
  rcases step_cases s with ⟨-, heq⟩ | ⟨w, ws, i, -, hw, heq⟩ | ⟨w, ws, e, -, -, heq⟩ <;> rw [heq] at hstep
  · cases hstep
    exact h
  · have htaken : StateInv { s with inbox := ws } := h.of_sublist (List.Sublist.refl _) rfl rfl
    rcases decodeOp_cases hw with ⟨m, ticks, rfl, -⟩ | ⟨line, now, rfl, -⟩ | ⟨now, rfl, -⟩
    · exact execReset_keeps_stateInv htaken hstep
    · exact execFeed_keeps_stateInv htaken hstep
    · exact execTick_keeps_stateInv htaken hstep
  · cases hstep

/-! ### The obligations -/

/-- Settles O27, by the rule of each operation of the port; the case that turns on the table's capacity is a new group, for which
room is made first (R155, R162). -/
theorem everyStepKeepsTheInvariant : Obligations.EveryStepKeepsTheInvariant :=
  fun _ _ h hstep => step_keeps_stateInv h hstep

/-- Settles O1: the defaults of R24 and R25 stand in the reset state. -/
theorem resetStateHasTheSpecsValues : Obligations.ResetStateHasTheSpecsValues := ⟨rfl, rfl, rfl, rfl⟩

/-- Key order between two channel bytes (R22). -/
theorem keyBefore_some_some (a b : Byte) (q r : Nat) :
    keyBefore { channel := some a, seq := q } { channel := some b, seq := r } =
      decide (a.toNat < b.toNat ∨ a = b ∧ q < r) := by
  simp [keyBefore, channelBefore]

/-- Settles O9: the four channel cases, then the laws of a strict total order. -/
theorem keyOrderIsTotal : Obligations.KeyOrderIsTotal := by
  refine ⟨fun q r a b => ⟨rfl, rfl, ?_, keyBefore_some_some a b q r⟩, keyBefore_trichotomy, fun _ _ _ => keyBefore_trans,
    keyBefore_irrefl⟩
  simp [keyBefore, channelBefore]

/-- Settles O26: the reset table is empty, and so meets whatever is asked of its groups. -/
theorem resetMeetsTheInvariant : Obligations.ResetMeetsTheInvariant :=
  ⟨stateInv_of_empty rfl (by decide), fun _ _ _ he => absurd he List.not_mem_nil⟩

end Sys2Proof.Machine

/-! SUPPORT. Family 20_memory.md: a line that parses bounds its payload, the payloads stored stay within that bound under each
operation, and the obligation of the memory. -/

namespace Sys2Proof

/-! ### A parsed payload is within its line (R122, R129) -/

/-- A piece that was joined stands whole in the joined line. -/
theorem sublist_intercalate_of_mem {sep f : Line} {fields : List Line} (hf : f ∈ fields) :
    f.Sublist (List.intercalate sep fields) := by
  induction fields with
  | nil => cases hf
  | cons g gs ih =>
    cases gs with
    | nil => simp [List.mem_singleton.1 hf]
    | cons x xs =>
      rw [List.intercalate_cons_cons]
      rcases List.mem_cons.1 hf with rfl | hf
      · simp
      · exact (ih hf).trans (List.sublist_append_right _ _)

/-- A piece of a line is no longer than the line. -/
theorem length_le_of_mem_splitAtByte {b : Byte} {l f : Line} (h : f ∈ splitAtByte b l) : f.length ≤ l.length := by
  have hsub := sublist_intercalate_of_mem (sep := [b]) h
  rw [intercalate_splitAtByte] at hsub
  exact hsub.length_le

/-- The framing checks pass exactly when the stripped line is short enough and its start byte, star and checksum field are in
place (R122 to R126, R139). -/
theorem frame_eq_ok {b : Build} {line : Line} {fr : Frame} :
    frame b line = .ok fr ↔
      tooLong b (stripTerminators line) = false ∧
        ∃ c rest cf, stripTerminators line = c :: rest ∧ startOf c = some fr.start ∧
          splitAtStar rest = some (fr.region, cf) ∧ hexPair cf = some fr.supplied := by
  obtain ⟨start, region, supplied⟩ := fr
  constructor
  · fun_cases frame b line with
    | case6 t hlen c rest ht start' hstart region' cf hstar supplied' hsum =>
      rintro ⟨⟩
      exact ⟨by simpa using hlen, c, rest, cf, ht, hstart, hstar, hsum⟩
    | _ => nofun
  · rintro ⟨hlen, c, rest, cf, ht, hstart, hstar, hsum⟩
    simp only at hstart hstar hsum
    rw [ht] at hlen
    simp [frame, ht, hlen, hstart, hstar, hsum]

theorem length_le_of_not_tooLong {b : Build} {t : Line} {n : Nat} (h : tooLong b t = false) (hn : b.maxLine = some n) :
    t.length ≤ n := by
  simpa [tooLong, hn] using h

/-- With a finite P_MAX_LINE the payload of a line that parses is no longer than it (R9, R122). -/
theorem payload_length_le_of_parse {b : Build} {line : Line} {r : RawSentence} {n : Nat} (h : parse b line = .ok r)
    (hn : b.maxLine = some n) : r.fields.payload.length ≤ n := by
  obtain ⟨fr, hframe, -, hfields⟩ := parse_eq_ok.1 h
  obtain ⟨hlen, c, rest, cf, ht, -, hstar, -⟩ := frame_eq_ok.1 hframe
  obtain ⟨f0, f1, f2, f3, f4, f6, hsplit, -⟩ := parseFields_eq_ok.1 hfields
  have hpayload : r.fields.payload.length ≤ (startByte fr.start :: fr.region).length :=
    length_le_of_mem_splitAtByte (b := 0x2C#8) (by simp [hsplit])
  have hline : (c :: rest).length ≤ n := length_le_of_not_tooLong (ht ▸ hlen) hn
  rw [(splitAtStar_eq_some.1 hstar).1] at hline
  simp only [List.length_cons, List.length_append] at hpayload hline
  omega

end Sys2Proof

namespace Sys2Proof.Machine

/-! ### The bound on a group's payloads (R50) -/

/-- Every filled slot of the group holds at most `n` bytes: what `slotsBounded` asks of each group of the table. -/
def PayloadsWithin (n : Nat) (g : Group) : Prop := ∀ slot ∈ g.slots, ∀ x, slot = some x → x.payload.length ≤ n

theorem slotsBounded_iff {s : State} :
    slotsBounded s ↔ ∀ n, s.build.maxLine = some n → ∀ e ∈ s.groups, PayloadsWithin n e.2 := Iff.rfl

theorem payloadsWithin_newGroup (n : Nat) (f : SentenceFields) (now : Tick) : PayloadsWithin n (newGroup f now) := by
  rintro slot hslot x rfl
  cases List.eq_of_mem_replicate hslot

/-- A write adds the fragment's payload alone (R156). -/
theorem PayloadsWithin.writeSlot {n : Nat} {f : SentenceFields} {g : Group} (h : PayloadsWithin n g)
    (hf : f.payload.length ≤ n) (now : Tick) : PayloadsWithin n (writeSlot f now g) := by
  rintro slot hslot x rfl
  rcases List.mem_or_eq_of_mem_set hslot with hold | hnew
  · exact h _ hold x rfl
  · cases hnew
    exact hf

/-! ### The bound under the operations -/

/-- Whatever adds no group to the table keeps the bound: eviction, removal, and all that leaves the table alone. -/
theorem slotsBounded.of_subset {s t : State} (h : slotsBounded s) (hsub : t.groups ⊆ s.groups)
    (hbuild : t.build = s.build) : slotsBounded t :=
  fun n hn e he => h n (hbuild ▸ hn) e (hsub he)

theorem slotsBounded.emit {s : State} (h : slotsBounded s) (r : Record) : slotsBounded (emit r s) :=
  h.of_subset (List.Subset.refl _) rfl

theorem slotsBounded.beginOutput {s : State} (h : slotsBounded s) : slotsBounded (beginOutput s) :=
  h.of_subset (List.Subset.refl _) rfl

theorem slotsBounded.evictIdle {s : State} (h : slotsBounded s) (now : Tick) : slotsBounded (evictIdle now s) :=
  h.of_subset (List.filter_subset_self _) rfl

theorem slotsBounded.beginFeed {s : State} (h : slotsBounded s) (now : Tick) : slotsBounded (beginFeed now s) :=
  h.of_subset (List.filter_subset_self _) rfl

theorem slotsBounded.remove {s : State} (h : slotsBounded s) (k : Key) :
    slotsBounded { s with groups := remove k s.groups } :=
  h.of_subset (List.filter_subset_self _) rfl

theorem slotsBounded.makeRoom {s : State} (h : slotsBounded s) : slotsBounded (makeRoom s) := by
  obtain ⟨caps, -, -, heq⟩ := makeRoom_frame s
  rw [heq]
  exact h.of_subset (List.filter_subset_self _) rfl

/-- The written group is stored or given up; either way the table's other groups are as they were (R151, R157). -/
theorem slotsBounded.closeGroup {s : State} (h : slotsBounded s) {k : Key} {g : Group}
    (hg : ∀ n, s.build.maxLine = some n → PayloadsWithin n g) : slotsBounded (closeGroup k g s).1 := by
  cases hfull : allFilled g with
  | true =>
    rw [closeGroup_complete hfull]
    exact h.remove k
  | false =>
    rw [closeGroup_pending hfull]
    refine slotsBounded_iff.2 fun n hn e he => ?_
    rcases mem_insert he with rfl | he
    · exact hg n hn
    · exact h n hn e he

theorem slotsBounded.reassemble {s : State} (h : slotsBounded s) {f : SentenceFields}
    (hf : ∀ n, s.build.maxLine = some n → f.payload.length ≤ n) (now : Tick) : slotsBounded (reassemble f now s).1 := by
  rcases openGroup_cases f now s with ⟨g, hl, -, heq⟩ | heq <;> rw [heq]
  · refine h.closeGroup fun n hn => ?_
    exact (slotsBounded_iff.1 h n hn _ (mem_of_lookup hl)).writeSlot (hf n hn) now
  · refine (h.remove (keyOf f)).makeRoom.closeGroup fun n hn => ?_
    exact (payloadsWithin_newGroup n f now).writeSlot (hf n (by simpa using hn)) now

theorem runSentence_keeps_slotsBounded {c : FeedContext} {r : RawSentence} {s t : State} (h : slotsBounded s)
    (hr : ∀ n, s.build.maxLine = some n → r.fields.payload.length ≤ n) (hrun : runSentence c r s = .next t) :
    slotsBounded t := by
  obtain ⟨u, rec, heq, hu, -⟩ := runSentence_eq c r s
  cases heq.symm.trans hrun
  rcases hu with ⟨rfl, -⟩ | ⟨rfl, -⟩
  · exact h.emit rec
  · exact (h.reassemble hr c.now).emit rec

/-- A FEED stores at most the payload of its own line, which parsed within P_MAX_LINE (R104, R122). -/
theorem execFeed_keeps_slotsBounded {line : Line} {now : Tick} {s t : State} (h : slotsBounded s)
    (hrun : execFeed line now s = .next t) : slotsBounded t := by
  cases hp : parse s.build line with
  | error e =>
    cases (execFeed_of_error now hp).symm.trans hrun
    exact (h.beginFeed now).emit _
  | ok r =>
    rw [execFeed_of_sentence now hp] at hrun
    exact runSentence_keeps_slotsBounded (h.beginFeed now) (fun n hn => payload_length_le_of_parse hp hn) hrun

theorem execReset_keeps_slotsBounded {m : Option Nat} {ticks : Option Tick} {s t : State} (h : slotsBounded s)
    (hrun : execReset m ticks s = .next t) : slotsBounded t := by
  unfold execReset at hrun
  split at hrun <;> cases hrun
  · exact h.beginOutput
  · exact h.of_subset (List.nil_subset _) rfl

theorem step_keeps_slotsBounded {s t : State} (h : slotsBounded s) (hstep : step s = .next t) : slotsBounded t := by
  rcases step_cases s with ⟨-, heq⟩ | ⟨w, ws, i, -, hw, heq⟩ | ⟨w, ws, e, -, -, heq⟩ <;> rw [heq] at hstep
  · cases hstep
    exact h
  · have htaken : slotsBounded { s with inbox := ws } := h
    rcases decodeOp_cases hw with ⟨m, ticks, rfl, -⟩ | ⟨line, now, rfl, -⟩ | ⟨now, rfl, -⟩
    · exact execReset_keeps_slotsBounded htaken hstep
    · exact execFeed_keeps_slotsBounded htaken hstep
    · cases hstep
      exact htaken.beginOutput.evictIdle now
  · cases hstep

/-! ### The bytes held (R50) -/

/-- A group's payload bytes are those of its filled slots. -/
theorem combinedPayload_eq (g : Group) : combinedPayload g = g.slots.reduceOption.flatMap Slot.payload := by
  unfold combinedPayload
  induction g.slots with
  | nil => rfl
  | cons slot slots ih => cases slot <;> simp [ih]

theorem PayloadsWithin.length_combinedPayload_le {n : Nat} {g : Group} (h : PayloadsWithin n g) :
    (combinedPayload g).length ≤ g.slots.reduceOption.length * n := by
  rw [combinedPayload_eq, List.length_flatMap]
  have hslot : ∀ x ∈ g.slots.reduceOption, x.payload.length ≤ n := fun x hx => h _ (List.reduceOption_mem_iff.1 hx) x rfl
  simpa using List.sum_le_card_nsmul _ n (List.forall_mem_map.2 hslot)

/-- A pending group has an empty slot, so at most P_MAX_FRAGMENTS - 1 of its slots hold a payload (R29). -/
theorem filledSlots_le_of_groupInv {b : Build} {g : Group} (h : groupInv b g = true) :
    g.slots.reduceOption.length ≤ b.maxFragments - 1 := by
  obtain ⟨-, hmax, hslots, -, hopen⟩ := groupInv_iff.1 h
  have hempty : none ∈ g.slots := by simpa [allFilled] using hopen
  have hlt := List.reduceOption_length_lt_iff.2 hempty
  omega

/-- A table of groups as R29 has them, with payloads of at most `n` bytes, holds the bound's share for each group. -/
theorem storedBytes_le {b : Build} {t : Table} {n : Nat} (hinv : ∀ e ∈ t, entryInv b e = true)
    (hpay : ∀ e ∈ t, PayloadsWithin n e.2) : storedBytes t ≤ t.length * ((b.maxFragments - 1) * n) := by
  have hgroup : ∀ e ∈ t, (combinedPayload e.2).length ≤ (b.maxFragments - 1) * n := fun e he =>
    (hpay e he).length_combinedPayload_le.trans
      (Nat.mul_le_mul_right n (filledSlots_le_of_groupInv (entryInv_iff.1 (hinv e he)).1))
  simpa [storedBytes] using List.sum_le_card_nsmul _ _ (List.forall_mem_map.2 hgroup)

/-! ### The obligation -/

/-- Settles O28: the bound on a payload is kept by each operation of the port, and the total is that bound over the groups the table
has room for, each with one slot empty. -/
theorem storedPayloadsStayBounded : Obligations.StoredPayloadsStayBounded := by
  rintro s ⟨-, hcap, -, hentry⟩ hbound
  refine ⟨fun t hstep => step_keeps_slotsBounded hbound hstep, fun n hn => ?_⟩
  calc storedBytes s.groups
      ≤ s.groups.length * ((s.build.maxFragments - 1) * n) := storedBytes_le hentry (slotsBounded_iff.1 hbound n hn)
    _ ≤ s.cfgMaxGroups * ((s.build.maxFragments - 1) * n) := Nat.mul_le_mul_right _ hcap
    _ = s.cfgMaxGroups * (s.build.maxFragments - 1) * n := (Nat.mul_assoc ..).symm

end Sys2Proof.Machine

/-! SUPPORT. Family 30_encoding.md: the layouts of the messages read back from their bits, the grammar of a sentence as the parser's
checks read it, and the obligations of the encoding. -/

namespace Sys2Proof

open Claim

/-! ### Layouts (R74 to R77, R190 to R194) -/

/-- Every required length reaches past the type (R193). -/
theorem six_le_requiredLength {t need : Nat} (h : requiredLength t = some need) : 6 ≤ need := by
  unfold requiredLength at h
  split_ifs at h <;> cases h <;> decide

/-- A bitstream of a supported type that reaches the end of its layout decodes by that layout (R190). -/
theorem decodeMessage_of_long {bs : Bits} {t need : Nat} (ht : U bs 0 6 = t) (hreq : requiredLength t = some need)
    (hlong : need ≤ bs.length) : decodeMessage bs = .ok (messageOfType t bs) := by
  have hsix := six_le_requiredLength hreq
  rw [decodeMessage, if_neg (by omega), ht, hreq]
  exact if_neg (by omega)

theorem decode_message_of_long {bs : Bits} {t need : Nat} (b : Build) (c : MessageContext) (ht : U bs 0 6 = t)
    (hreq : requiredLength t = some need) (hlong : need ≤ bs.length) :
    decode b (.message c bs) = .ok ((messageOfType t bs).toInstr c bs.length) := by
  rw [decode, decodeMessage_of_long ht hreq hlong]

theorem length_positionBits (t : Nat) (f : PositionFields) : (positionBits t f).length = 143 := by
  simp only [positionBits, List.length_append, length_bitsOf]

theorem length_baseStationBits (f : BaseStationFields) : (baseStationBits f).length = 138 := by
  simp only [baseStationBits, List.length_append, length_bitsOf]

theorem length_staticBits (f : StaticFields) : (staticBits f).length = 422 := by
  simp only [staticBits, List.length_append, length_bitsOf]

theorem length_padBits {bs : Bits} {n : Nat} (h : bs.length ≤ n) : (padBits n bs).length = n := by
  simp [padBits, h]

/-- The layout of types 1 to 3 reads each field where its bits stand; the type and the bits after the layout do not matter. -/
theorem positionFields_positionBits_append (t : Nat) (f : PositionFields) (rest : Bits) :
    positionFields (positionBits t f ++ rest) = f := by
  obtain ⟨_, _, _, _, _, _, _, _, _, _, _⟩ := f
  simp (disch := simp [length_bitsOf]) only [positionFields, positionBits, field_append_left, field_append_right]

theorem baseStationFields_baseStationBits_append (f : BaseStationFields) (rest : Bits) :
    baseStationFields (baseStationBits f ++ rest) = f := by
  obtain ⟨_, _, _, _, _, _, _, _, _, _, _, _⟩ := f
  simp (disch := simp [length_bitsOf]) only [baseStationFields, baseStationBits, field_append_left, field_append_right]

theorem staticFields_staticBits_append (f : StaticFields) (rest : Bits) : staticFields (staticBits f ++ rest) = f := by
  obtain ⟨_, _, _, _, _, _, _, _, _, _, _, _, _, _, _, _, _, _⟩ := f
  simp (disch := simp [length_bitsOf]) only [staticFields, staticBits, field_append_left, field_append_right]

/-- The bits of a layout, padded to the bitstream's length, decode to the message of their type (R74, R190). -/
theorem decode_padBits {bs : Bits} {t need n : Nat} {m : Message} (b : Build) (c : MessageContext)
    (ht : U (padBits n bs) 0 6 = t) (hneed : bs.length = need) (hreq : requiredLength t = some need) (hn : need ≤ n)
    (hm : messageOfType t (padBits n bs) = m) : decode b (.message c (padBits n bs)) = .ok (m.toInstr c n) := by
  have hlen : (padBits n bs).length = n := length_padBits (hneed.trans_le hn)
  rw [decode_message_of_long b c ht hreq (hn.trans_eq hlen.symm), hlen, hm]

theorem positionFields_padBits (n t : Nat) (f : PositionFields) : positionFields (padBits n (positionBits t f)) = f :=
  positionFields_positionBits_append t f _

theorem baseStationFields_padBits (n : Nat) (f : BaseStationFields) : baseStationFields (padBits n (baseStationBits f)) = f :=
  baseStationFields_baseStationBits_append f _

theorem staticFields_padBits (n : Nat) (f : StaticFields) : staticFields (padBits n (staticBits f)) = f :=
  staticFields_staticBits_append f _

/-! ### Operations (R60) -/

theorem decodeOp_resetWord (m : Option Nat) (t : Option Tick) :
    decodeOp { code := 0#8, operands := [natOperand m, tickOperand t] } = .ok (.reset m t) := by
  cases m <;> cases t <;> rfl

/-! ### The fields of a sentence, read and spelled (R64 to R68) -/

theorem dec_eq_some_iff_spellsDecimal {s : Line} {n : Nat} : dec s = some n ↔ spellsDecimal s n := dec_eq_some

theorem hexVal_eq_some_iff_spellsHex {c : Byte} {v : Nat} : hexVal c = some v ↔ spellsHex c v := hexVal_eq_some

theorem startOf_eq_some {c : Byte} {s : Start} : startOf c = some s ↔ c = startByte s := by
  constructor
  · fun_cases startOf c with
    | case1 hc | case2 _ hc =>
      rintro ⟨⟩
      exact hc
    | case3 => nofun
  · rintro rfl
    cases s <;> rfl

theorem isUpper_iff {c : Byte} : isUpper c = true ↔ 0x41 ≤ c.toNat ∧ c.toNat ≤ 0x5A := by simp [isUpper]

theorem isFieldByte_iff {c : Byte} : isFieldByte c = true ↔ c ≠ 0x2C#8 ∧ c ≠ 0x2A#8 := by simp [isFieldByte]

/-- The address field: a start byte, the talker's two letters, `VD` and the last letter of the sentence id (R130). -/
theorem addressOf_eq_some {f0 : Line} {t1 t2 : Byte} {sid : Sid} :
    addressOf f0 = some (t1, t2, sid) ↔
      ∃ s, f0 = [s, t1, t2, 0x56#8, 0x44#8, sidByte sid] ∧ (startOf s).isSome = true ∧ isUpper t1 = true ∧
        isUpper t2 = true := by
  constructor
  · fun_cases addressOf f0 with
    | case1 s u1 u2 c3 c4 hcond | case2 s u1 u2 c3 c4 hcond =>
      rintro ⟨⟩
      simp only [Bool.and_eq_true, beq_iff_eq] at hcond
      obtain ⟨⟨⟨⟨hs, h1⟩, h2⟩, rfl⟩, rfl⟩ := hcond
      exact ⟨s, rfl, hs, h1, h2⟩
    | _ => nofun
  · rintro ⟨s, rfl, hs, h1, h2⟩
    cases sid <;> simp [addressOf, sidByte, hs, h1, h2]

theorem countOf_eq_some {b : Build} {f1 : Line} {n : Nat} :
    countOf b f1 = some n ↔ dec f1 = some n ∧ 1 ≤ n ∧ n ≤ b.maxFragments := by
  unfold countOf
  cases dec f1 with
  | none => simp
  | some m =>
    simp only [Option.ite_none_right_eq_some, Option.some.injEq]
    grind

theorem numberOf_eq_some {f2 : Line} {k : Nat} : numberOf f2 = some k ↔ dec f2 = some k ∧ 1 ≤ k := by
  unfold numberOf
  cases dec f2 with
  | none => simp
  | some m =>
    simp only [Option.ite_none_right_eq_some, Option.some.injEq]
    grind

theorem seqOf_eq_some {b : Build} {f3 : Line} {empty : Bool} {q : Nat} :
    seqOf b f3 = some (empty, q) ↔
      (f3 = [] ∧ empty = true ∧ q = 0) ∨ (empty = false ∧ dec f3 = some q ∧ q ≤ b.seqIdMax) := by
  cases f3 with
  | nil => simp [seqOf, dec, eq_comm]
  | cons c cs =>
    simp only [seqOf]
    cases dec (c :: cs) with
    | none => simp
    | some m =>
      simp only [List.isEmpty_cons, Bool.false_eq_true, if_false, Option.ite_none_right_eq_some, Option.some.injEq]
      grind

theorem channelOf_eq_some {f4 : Line} {ch : Option Byte} : channelOf f4 = some ch ↔ f4 = ch.toList := by
  rcases f4 with _ | ⟨c, _ | ⟨d, ds⟩⟩ <;> cases ch <;> simp [channelOf]

theorem fillOf_eq_some {f6 : Line} {fill : Fin 6} :
    fillOf f6 = some fill ↔ f6 = [BitVec.ofNat 8 (0x30 + fill.val)] := by
  constructor
  · fun_cases fillOf f6 with
    | case1 c h =>
      rintro ⟨⟩
      simp [Nat.add_sub_cancel' h.1]
    | _ => nofun
  · rintro rfl
    revert fill
    decide

/-! ### The grammar (R61, R62) -/

/-- The bytes between the start byte and the star of a sentence whose fields f1 to f4 are written so: the region of `Claim.spells`,
of which the encoder's `sentenceRegion` is the one with canonical numbers. -/
def regionText (r : RawSentence) (f1 f2 f3 f4 : Line) : Line :=
  [r.fields.talker1, r.fields.talker2, 0x56#8, 0x44#8, sidByte r.sid] ++ [0x2C#8] ++ f1 ++ [0x2C#8] ++ f2 ++
    [0x2C#8] ++ f3 ++ [0x2C#8] ++ f4 ++ [0x2C#8] ++ r.fields.payload ++ [0x2C#8] ++
    [BitVec.ofNat 8 (0x30 + r.fields.fill.val)]

theorem sentenceRegion_eq_regionText (sid : Sid) (f : SentenceFields) :
    sentenceRegion sid f =
      regionText { sid := sid, fields := f } (decDigits f.count) (decDigits f.number)
        (if f.seqEmpty then [] else decDigits f.seq) f.channel.toList := rfl

theorem hexPair_eq_some_iff_spellsHex {s : Line} {x : Byte} :
    hexPair s = some x ↔
      ∃ h1 h2 v1 v2, s = [h1, h2] ∧ spellsHex h1 v1 ∧ spellsHex h2 v2 ∧ x = BitVec.ofNat 8 (16 * v1 + v2) := by
  simp only [hexPair_eq_some, hexVal_eq_some_iff_spellsHex]

theorem tooLong_eq_false {b : Build} {t : Line} : tooLong b t = false ↔ ∀ n, b.maxLine = some n → t.length ≤ n := by
  unfold tooLong
  cases b.maxLine <;> simp

theorem tooLong_framing {b : Build} {c h1 h2 : Byte} {region : Line} :
    tooLong b (c :: (region ++ [0x2A#8, h1, h2])) = false ↔ ∀ n, b.maxLine = some n → region.length + 4 ≤ n := by
  simp only [tooLong_eq_false, List.length_cons, List.length_append, List.length_nil, Nat.reduceAdd, Nat.add_assoc]

theorem stripTerminators_framing {front ending : Line} {c d : Byte} {v : Nat} (hd : spellsHex d v)
    (hend : ∀ x ∈ ending, x = 0x0D#8 ∨ x = 0x0A#8) :
    stripTerminators ((front ++ [c, d]) ++ ending) = front ++ [c, d] := by
  rw [stripTerminators_append _ _ fun x hx => (isTerminator_iff x).2 (hend x hx)]
  refine stripTerminators_eq_self fun x hx => ?_
  rw [List.getLast?_append_of_ne_nil _ (by simp)] at hx
  cases hx
  exact isTerminator_of_hexVal (hexVal_eq_some_iff_spellsHex.2 hd)

/-- The framing checks accept exactly the framed lines (R121 to R126). -/
theorem frame_eq_ok_iff_framed {b : Build} {line : Line} {fr : Frame} :
    frame b line = .ok fr ↔ framed b line (startByte fr.start) fr.region fr.supplied := by
  rw [frame_eq_ok]
  constructor
  · rintro ⟨hlen, c, rest, cf, ht, hstart, hstar, hsum⟩
    obtain ⟨ending, hline, hend⟩ := exists_terminators line
    obtain rfl := startOf_eq_some.1 hstart
    obtain ⟨rfl, hfree⟩ := splitAtStar_eq_some.1 hstar
    obtain ⟨h1, h2, v1, v2, rfl, hv1, hv2, hsupplied⟩ := hexPair_eq_some_iff_spellsHex.1 hsum
    rw [ht] at hlen hline
    refine ⟨h1, h2, v1, v2, ending, by simpa using hline, fun x hx => (isTerminator_iff x).1 (hend x hx), ?_,
      fun x hx heq => hfree (heq ▸ hx), tooLong_framing.1 hlen, hv1, hv2, hsupplied⟩
    cases fr.start <;> simp [startByte]
  · rintro ⟨h1, h2, v1, v2, ending, rfl, hend, -, hfree, hlen, hv1, hv2, hsupplied⟩
    have ht : stripTerminators ((startByte fr.start :: fr.region ++ [0x2A#8, h1, h2]) ++ ending) =
        startByte fr.start :: (fr.region ++ [0x2A#8, h1, h2]) := by
      simpa using stripTerminators_framing (front := startByte fr.start :: fr.region ++ [0x2A#8]) (c := h1) hv2 hend
    rw [ht]
    exact ⟨tooLong_framing.2 hlen, _, _, _, rfl, startOf_eq_some.2 rfl,
      splitAtStar_eq_some.2 ⟨rfl, fun hm => hfree _ hm rfl⟩,
      hexPair_eq_some_iff_spellsHex.2 ⟨h1, h2, v1, v2, rfl, hv1, hv2, hsupplied⟩⟩

/-- The seven comma-separated fields of a sentence's text (R129). -/
def fieldTexts (r : RawSentence) (f1 f2 f3 f4 : Line) : List Line :=
  [[startByte r.fields.start, r.fields.talker1, r.fields.talker2, 0x56#8, 0x44#8, sidByte r.sid], f1, f2, f3, f4,
    r.fields.payload, [BitVec.ofNat 8 (0x30 + r.fields.fill.val)]]

theorem intercalate_fieldTexts (r : RawSentence) (f1 f2 f3 f4 : Line) :
    List.intercalate [0x2C#8] (fieldTexts r f1 f2 f3 f4) = startByte r.fields.start :: regionText r f1 f2 f3 f4 := by
  simp [fieldTexts, regionText, List.intercalate]

/-- A line splits into given pieces exactly when none of them holds the byte and they join to the line (R10). -/
theorem splitAtByte_eq_iff {b : Byte} {l : Line} {fields : List Line} (hne : fields ≠ []) :
    splitAtByte b l = fields ↔ l = List.intercalate [b] fields ∧ ∀ f ∈ fields, b ∉ f := by
  constructor
  · rintro rfl
    exact ⟨(intercalate_splitAtByte b l).symm, fun f hf => notMem_of_mem_splitAtByte hf⟩
  · rintro ⟨rfl, hfree⟩
    exact splitAtByte_intercalate hne hfree

theorem spellsFields_iff {b : Build} {f1 f2 f3 f4 : Line} {f : SentenceFields} :
    spellsFields b f1 f2 f3 f4 f ↔
      countOf b f1 = some f.count ∧ numberOf f2 = some f.number ∧ f.number ≤ f.count ∧
        seqOf b f3 = some (f.seqEmpty, f.seq) ∧ channelOf f4 = some f.channel ∧
        (∀ c ∈ f4, c ≠ 0x2C#8 ∧ c ≠ 0x2A#8) ∧ ∀ c ∈ f.payload, c ≠ 0x2C#8 ∧ c ≠ 0x2A#8 := by
  simp only [spellsFields, countOf_eq_some, numberOf_eq_some, seqOf_eq_some, channelOf_eq_some,
    dec_eq_some_iff_spellsDecimal]
  tauto

/-! ### The bytes of the fields (R61) -/

theorem isFieldByte_of_le {c : Byte} (h : 0x30 ≤ c.toNat) : isFieldByte c = true :=
  isFieldByte_iff.2 ⟨fun hc => absurd (hc ▸ h) (by decide), fun hc => absurd (hc ▸ h) (by decide)⟩

theorem isFieldByte_of_isUpper {c : Byte} (h : isUpper c = true) : isFieldByte c = true :=
  isFieldByte_of_le ((by decide : 0x30 ≤ 0x41).trans (isUpper_iff.1 h).1)

theorem isFieldByte_of_spellsDecimal {s : Line} {n : Nat} (h : spellsDecimal s n) : ∀ c ∈ s, isFieldByte c = true := by
  obtain ⟨-, hdigits, -⟩ := h
  exact fun c hc => isFieldByte_of_le (hdigits c hc).1

theorem isFieldByte_startByte (s : Start) : isFieldByte (startByte s) = true := by cases s <;> rfl

theorem isFieldByte_sidByte (sid : Sid) : isFieldByte (sidByte sid) = true := by cases sid <;> rfl

theorem isFieldByte_fillByte (fill : Fin 6) : isFieldByte (BitVec.ofNat 8 (0x30 + fill.val)) = true := by
  revert fill
  decide

/-- No field of a sentence in its ranges holds a comma or a star. -/
theorem isFieldByte_of_mem_fieldTexts {b : Build} {r : RawSentence} {f1 f2 f3 f4 : Line}
    (hu1 : isUpper r.fields.talker1 = true) (hu2 : isUpper r.fields.talker2 = true)
    (hf : spellsFields b f1 f2 f3 f4 r.fields) :
    ∀ f ∈ fieldTexts r f1 f2 f3 f4, ∀ c ∈ f, isFieldByte c = true := by
  obtain ⟨hcount, -, -, hnumber, -, -, hseq, -, hchannel, hpayload⟩ := hf
  have hseq' : ∀ c ∈ f3, isFieldByte c = true := by
    rcases hseq with ⟨rfl, -⟩ | ⟨-, hseq, -⟩
    · exact fun _ hc => absurd hc List.not_mem_nil
    · exact isFieldByte_of_spellsDecimal hseq
  simpa only [fieldTexts, List.forall_mem_cons, List.not_mem_nil, false_imp_iff, implies_true, and_true] using
    ⟨⟨isFieldByte_startByte r.fields.start, isFieldByte_of_isUpper hu1, isFieldByte_of_isUpper hu2, by decide, by decide,
      isFieldByte_sidByte r.sid⟩, isFieldByte_of_spellsDecimal hcount, isFieldByte_of_spellsDecimal hnumber, hseq',
      fun c hc => isFieldByte_iff.2 (hchannel c hc), fun c hc => isFieldByte_iff.2 (hpayload c hc),
      isFieldByte_fillByte r.fields.fill⟩

/-- A byte between the start byte and the star separates two fields or stands in one. -/
theorem eq_comma_or_mem_fieldTexts_of_mem_regionText {r : RawSentence} {f1 f2 f3 f4 : Line} {c : Byte}
    (h : c ∈ regionText r f1 f2 f3 f4) : c = 0x2C#8 ∨ ∃ f ∈ fieldTexts r f1 f2 f3 f4, c ∈ f := by
  simp only [regionText, fieldTexts, List.mem_append, List.mem_cons, List.not_mem_nil, or_false, exists_eq_or_imp,
    exists_eq_left] at h ⊢
  tauto

/-! ### The parser and the grammar -/

/-- The grammar of R61 in the parser's order: the line is framed (R121 to R126), and what stands in the frame is the text of the
sentence's fields, with their checksum (R127 to R137). -/
def SpelledInFrame (b : Build) (line : Line) (r : RawSentence) : Prop :=
  ∃ f1 f2 f3 f4,
    framed b line (startByte r.fields.start) (regionText r f1 f2 f3 f4) r.fields.checksum ∧
    isUpper r.fields.talker1 = true ∧ isUpper r.fields.talker2 = true ∧ spellsFields b f1 f2 f3 f4 r.fields ∧
    r.fields.checksum = xorBytes (regionText r f1 f2 f3 f4)

/-- The parser's checks pass exactly on the framed texts of a sentence's fields: seven pieces between commas, each read by its own
check (R129 to R137). -/
theorem parse_eq_ok_iff_spelledInFrame {b : Build} {line : Line} {r : RawSentence} :
    parse b line = .ok r ↔ SpelledInFrame b line r := by
  rw [parse_eq_ok]
  constructor
  · rintro ⟨⟨start, region, supplied⟩, hframe, hxor, hparse⟩
    obtain ⟨f0, f1, f2, f3, f4, f6, hsplit, haddr, hcount, hnumber, hle, hseq, hchannel, hfill, rfl, rfl⟩ :=
      parseFields_eq_ok.1 hparse
    obtain ⟨s, rfl, -, hu1, hu2⟩ := addressOf_eq_some.1 haddr
    obtain rfl := fillOf_eq_some.1 hfill
    obtain ⟨hjoin, hcomma⟩ := (splitAtByte_eq_iff (by simp)).1 hsplit
    obtain ⟨rfl, rfl⟩ : startByte r.fields.start = s ∧ region = regionText r f1 f2 f3 f4 := by
      simpa [List.intercalate, regionText] using hjoin
    have hframed := frame_eq_ok_iff_framed.1 hframe
    have ⟨_, _, _, _, _, _, _, _, hstar, _⟩ := hframed
    refine ⟨f1, f2, f3, f4, hframed, hu1, hu2, ?_, hxor.symm⟩
    refine spellsFields_iff.2 ⟨hcount, hnumber, hle, hseq, hchannel, fun c hc => ⟨?_, ?_⟩, fun c hc => ⟨?_, ?_⟩⟩
    · exact fun heq => hcomma f4 (by simp) (heq ▸ hc)
    · exact hstar c (by simp [regionText, hc])
    · exact fun heq => hcomma r.fields.payload (by simp) (heq ▸ hc)
    · exact hstar c (by simp [regionText, hc])
  · rintro ⟨f1, f2, f3, f4, hframed, hu1, hu2, hf, hxor⟩
    refine ⟨⟨r.fields.start, regionText r f1 f2 f3 f4, r.fields.checksum⟩, frame_eq_ok_iff_framed.2 hframed, hxor.symm,
      ?_⟩
    have hbytes := isFieldByte_of_mem_fieldTexts hu1 hu2 hf
    have hsplit : splitAtByte 0x2C#8 (startByte r.fields.start :: regionText r f1 f2 f3 f4) = fieldTexts r f1 f2 f3 f4 :=
      (splitAtByte_eq_iff (by simp [fieldTexts])).2
        ⟨(intercalate_fieldTexts ..).symm, fun f hmem hc => (isFieldByte_iff.1 (hbytes f hmem _ hc)).1 rfl⟩
    obtain ⟨hcount, hnumber, hle, hseq, hchannel, -, -⟩ := spellsFields_iff.1 hf
    have haddr := (addressOf_eq_some (sid := r.sid)).2
      ⟨startByte r.fields.start, rfl, by simp [startOf_eq_some.2 rfl], hu1, hu2⟩
    exact parseFields_eq_ok.2
      ⟨_, f1, f2, f3, f4, _, hsplit, haddr, hcount, hnumber, hle, hseq, hchannel, fillOf_eq_some.2 rfl, rfl, rfl⟩

/-- The grammar of R61 says that the line is framed, and that the framed region spells the fields: that the region holds no star
follows from the fields. -/
theorem spells_iff_spelledInFrame {b : Build} {line : Line} {r : RawSentence} :
    spells b line r ↔ SpelledInFrame b line r := by
  constructor
  · rintro ⟨f1, f2, f3, f4, _, ending, h1, h2, v1, v2, hline, hend, hlen, rfl, hu1, hu2, hf, hv1, hv2, hsum, hxor⟩
    have hstar : ∀ c ∈ regionText r f1 f2 f3 f4, c ≠ 0x2A#8 := by
      intro c hc
      rcases eq_comma_or_mem_fieldTexts_of_mem_regionText hc with rfl | ⟨f, hmem, hcf⟩
      · decide
      · have hbytes := isFieldByte_of_mem_fieldTexts (isUpper_iff.2 hu1) (isUpper_iff.2 hu2) hf
        exact (isFieldByte_iff.1 (hbytes f hmem c hcf)).2
    refine ⟨f1, f2, f3, f4, ⟨h1, h2, v1, v2, ending, hline, hend, ?_, hstar, ?_, hv1, hv2, hsum⟩, isUpper_iff.2 hu1,
      isUpper_iff.2 hu2, hf, hxor⟩
    · cases r.fields.start <;> simp [startByte]
    · exact tooLong_framing.1 (tooLong_eq_false.2 hlen)
  · rintro ⟨f1, f2, f3, f4, ⟨h1, h2, v1, v2, ending, hline, hend, -, -, hlen, hv1, hv2, hsum⟩, hu1, hu2, hf, hxor⟩
    exact ⟨f1, f2, f3, f4, _, ending, h1, h2, v1, v2, hline, hend, tooLong_eq_false.1 (tooLong_framing.2 hlen), rfl,
      isUpper_iff.1 hu1, isUpper_iff.1 hu2, hf, hv1, hv2, hsum, hxor⟩

theorem parse_eq_ok_iff_spells {b : Build} {line : Line} {r : RawSentence} : parse b line = .ok r ↔ spells b line r :=
  parse_eq_ok_iff_spelledInFrame.trans spells_iff_spelledInFrame.symm

/-! ### The canonical text of a sentence (log entry 12) -/

theorem spellsDecimal_decDigits (n : Nat) : spellsDecimal (decDigits n) n := dec_eq_some.1 (dec_decDigits n)

theorem SentenceFields.wellFormed_iff {b : Build} {f : SentenceFields} :
    f.wellFormed b = true ↔
      isUpper f.talker1 = true ∧ isUpper f.talker2 = true ∧ (1 ≤ f.count ∧ f.count ≤ b.maxFragments) ∧
        (1 ≤ f.number ∧ f.number ≤ f.count) ∧ f.seq ≤ b.seqIdMax ∧ (f.seqEmpty = false ∨ f.seq = 0) ∧
        (∀ c ∈ f.channel.toList, isFieldByte c = true) ∧ ∀ c ∈ f.payload, isFieldByte c = true := by
  simp only [Bool.and_eq_true, Bool.or_eq_true, Bool.not_eq_true', decide_eq_true_eq, and_assoc,
    Option.all_eq_true, List.all_eq_true, Option.mem_toList, SentenceFields.wellFormed]

/-- Fields in their ranges are spelled by their canonical texts (R65, R66). -/
theorem spellsFields_canonical {b : Build} {f : SentenceFields} (h : f.wellFormed b = true) :
    spellsFields b (decDigits f.count) (decDigits f.number) (if f.seqEmpty then [] else decDigits f.seq) f.channel.toList f := by
  obtain ⟨-, -, ⟨hcount, hmax⟩, ⟨hnumber, hle⟩, hseq, hempty, hchannel, hpayload⟩ := SentenceFields.wellFormed_iff.1 h
  refine ⟨spellsDecimal_decDigits _, hcount, hmax, spellsDecimal_decDigits _, hnumber, hle, ?_, rfl,
    fun c hc => isFieldByte_iff.1 (hchannel c hc), fun c hc => isFieldByte_iff.1 (hpayload c hc)⟩
  cases he : f.seqEmpty with
  | true => exact .inl ⟨rfl, rfl, by simpa [he] using hempty⟩
  | false => exact .inr ⟨rfl, spellsDecimal_decDigits _, hseq⟩

/-- The canonical text of a sentence in its ranges is one of the texts that spell it (R61, log entry 12). -/
theorem spells_sentenceLine {b : Build} {sid : Sid} {f : SentenceFields} (hwf : f.wellFormed b = true)
    (hcanonical : canonicalSentence b sid f = true) :
    spells b (sentenceLine sid f) { sid := sid, fields := f } := by
  obtain ⟨hsum, hlen⟩ : f.checksum = xorBytes (sentenceRegion sid f) ∧ tooLong b (sentenceLine sid f) = false := by
    simpa [canonicalSentence] using hcanonical
  obtain ⟨hu1, hu2, -⟩ := SentenceFields.wellFormed_iff.1 hwf
  obtain ⟨h1, h2, v1, v2, hdigits, hv1, hv2, hhex⟩ :=
    hexPair_eq_some_iff_spellsHex.1 (hexPair_hexDigits (xorBytes (sentenceRegion sid f)))
  have hline : sentenceLine sid f = startByte f.start :: sentenceRegion sid f ++ [0x2A#8, h1, h2] := by
    simp [sentenceLine, hdigits]
  rw [hline] at hlen ⊢
  exact ⟨_, _, _, _, _, [], h1, h2, v1, v2, (List.append_nil _).symm, by simp, tooLong_eq_false.1 hlen,
    sentenceRegion_eq_regionText sid f, isUpper_iff.1 hu1, isUpper_iff.1 hu2, spellsFields_canonical hwf, hv1, hv2,
    hsum.trans hhex, hsum⟩

theorem decode_sentenceLine {b : Build} {sid : Sid} {f : SentenceFields} (c : FeedContext) (hwf : f.wellFormed b = true)
    (hcanonical : canonicalSentence b sid f = true) :
    decode b (.sentence c (sentenceLine sid f)) = .ok (RawSentence.toInstr c { sid := sid, fields := f }) := by
  rw [decode, parse_eq_ok_iff_spells.2 (spells_sentenceLine hwf hcanonical)]

/-! ### The armor alphabet (R71, R72) -/

theorem armorByte_toNat (v : BitVec 6) :
    (armorByte v).toNat = if v.toNat < 40 then v.toNat + 0x30 else v.toNat + 0x38 := by
  have hv := v.isLt
  unfold armorByte
  split_ifs
  · exact Nat.mod_eq_of_lt (by omega)
  · exact Nat.mod_eq_of_lt (by omega)

end Sys2Proof

namespace Sys2Proof.Machine

/-! ### Text fields (R78, R221) -/

/-- The characters of a text field stand at their six bits each (R78, R221). -/
theorem textChars_field {bs : Bits} {a m : Nat} (h : a + 6 * m ≤ bs.length) :
    textChars m (field bs a (6 * m)) = (List.range m).map (fun i => textByte (U bs (a + 6 * i) 6)) := by
  refine List.map_congr_left fun i hi => congrArg textByte ?_
  have hi : i < m := List.mem_range.1 hi
  have hshift : 6 * m - (6 * i + 6) = 6 * (m - 1 - i) := by omega
  rw [U_part bs a (6 * m) (6 * i) 6 (by omega) h, textValue, field_toNat, hshift, pow_mul, show (64 : Nat) = 2 ^ 6 from rfl]

/-! ### Classes in degrees (R80, R206 to R208) -/

/-- Comparing degrees is comparing raw values: 600000 raw units are one degree (R80). -/
theorem degrees_eq_iff {raw d : Int} : degrees raw = d ↔ raw = d * 600000 := by
  rw [degrees, div_eq_iff (by norm_num)]
  exact_mod_cast Iff.rfl

theorem degrees_le_iff {raw d : Int} : degrees raw ≤ d ↔ raw ≤ d * 600000 := by
  rw [degrees, div_le_iff₀ (by norm_num)]
  exact_mod_cast Iff.rfl

theorem le_degrees_iff {raw d : Int} : (d : Rat) ≤ degrees raw ↔ d * 600000 ≤ raw := by
  rw [degrees, le_div_iff₀ (by norm_num)]
  exact_mod_cast Iff.rfl

theorem courseDegrees_eq_iff {cog d : Nat} : courseDegrees cog = d ↔ cog = d * 10 := by
  rw [courseDegrees, div_eq_iff (by norm_num)]
  exact_mod_cast Iff.rfl

theorem courseDegrees_lt_iff {cog d : Nat} : courseDegrees cog < d ↔ cog < d * 10 := by
  rw [courseDegrees, div_lt_iff₀ (by norm_num)]
  exact_mod_cast Iff.rfl

theorem lonClass_eq_unavailable_iff {lon : Int} : lonClass lon = .unavailable ↔ lon = 108600000 := by
  unfold lonClass
  split_ifs <;> simp [*]

theorem lonClass_eq_available_iff {lon : Int} : lonClass lon = .available ↔ -108000000 ≤ lon ∧ lon ≤ 108000000 := by
  unfold lonClass
  split_ifs <;> simp <;> omega

theorem latClass_eq_unavailable_iff {lat : Int} : latClass lat = .unavailable ↔ lat = 54600000 := by
  unfold latClass
  split_ifs <;> simp [*]

theorem latClass_eq_available_iff {lat : Int} : latClass lat = .available ↔ -54000000 ≤ lat ∧ lat ≤ 54000000 := by
  unfold latClass
  split_ifs <;> simp <;> omega

theorem cogClass_eq_unavailable_iff {cog : Nat} : cogClass cog = .unavailable ↔ cog = 3600 := by
  unfold cogClass
  split_ifs <;> simp [*]

theorem cogClass_eq_available_iff {cog : Nat} : cogClass cog = .available ↔ cog < 3600 := by
  unfold cogClass
  split_ifs <;> simp <;> omega

/-! ### The obligations -/

/-- Settles O52, level by level: the port's words by evaluation, a sentence through the grammar its canonical text is in, a message
through its layout. -/
theorem decodingAnEncodingGivesItBack : Obligations.DecodingAnEncodingGivesItBack := by
  intro b i hwf hcanonical
  cases i with
  | reset m t => exact decodeOp_resetWord m t
  | feed line now => rfl
  | tick now => rfl
  | vdm c f => exact decode_sentenceLine c hwf hcanonical
  | vdo c f => exact decode_sentenceLine c hwf hcanonical
  | msg1 c n f =>
    exact decode_padBits b c (t := 1) (Laws.TableMatch.msg1 c n f) (length_positionBits 1 f) rfl (of_decide_eq_true hwf)
      (congrArg Message.msg1 (positionFields_padBits n 1 f))
  | msg2 c n f =>
    exact decode_padBits b c (t := 2) (Laws.TableMatch.msg2 c n f) (length_positionBits 2 f) rfl (of_decide_eq_true hwf)
      (congrArg Message.msg2 (positionFields_padBits n 2 f))
  | msg3 c n f =>
    exact decode_padBits b c (t := 3) (Laws.TableMatch.msg3 c n f) (length_positionBits 3 f) rfl (of_decide_eq_true hwf)
      (congrArg Message.msg3 (positionFields_padBits n 3 f))
  | msg4 c n f =>
    exact decode_padBits b c (t := 4) (Laws.TableMatch.msg4 c n f) (length_baseStationBits f) rfl (of_decide_eq_true hwf)
      (congrArg Message.msg4 (baseStationFields_padBits n f))
  | msg5 c n f =>
    exact decode_padBits b c (t := 5) (Laws.TableMatch.msg5 c n f) (length_staticBits f) rfl (of_decide_eq_true hwf)
      (congrArg Message.msg5 (staticFields_padBits n f))

/-- Settles O7: a word that decodes is one of the three (`decodeOp_cases`), and each of the three decodes to its operation. -/
theorem portAcceptsExactlyThreeOperations : Obligations.PortAcceptsExactlyThreeOperations := by
  refine fun b w i => ⟨decodeOp_cases, ?_⟩
  rintro (⟨m, t, rfl, rfl⟩ | ⟨line, now, rfl, rfl⟩ | ⟨now, rfl, rfl⟩)
  · exact decodeOp_resetWord m t
  · rfl
  · rfl

/-- Settles O29: both sides say that the line is framed and the framed region is the text of the fields (`SpelledInFrame`). -/
theorem parserAcceptsExactlyTheGrammar : Obligations.ParserAcceptsExactlyTheGrammar :=
  fun _ _ _ => parse_eq_ok_iff_spells

/-- Settles O42: the layout's fields hold the values of their bits, and each of the three types selects that layout. -/
theorem positionFieldsStandAtTheirBits : Obligations.PositionFieldsStandAtTheirBits := by
  intro b c bits hlen htype
  refine ⟨positionFields bits, ?_, field_toNat .., field_toNat .., field_toNat .., field_toInt bits 42 8 (by decide) (by omega),
    field_toNat .., field_toNat .., field_toInt bits 61 28 (by decide) (by omega),
    field_toInt bits 89 27 (by decide) (by omega), field_toNat .., field_toNat .., field_toNat ..⟩
  rcases htype with ht | ht | ht <;> rw [decode_message_of_long b c ht rfl hlen, ht] <;> rfl

/-- Settles O43, as O42 for the one type of this layout: its fields hold the values of their bits. -/
theorem baseStationFieldsStandAtTheirBits : Obligations.BaseStationFieldsStandAtTheirBits := by
  intro b c bits hlen htype
  exact ⟨baseStationFields bits, decode_message_of_long b c htype rfl hlen, field_toNat .., field_toNat .., field_toNat ..,
    field_toNat .., field_toNat .., field_toNat .., field_toNat .., field_toNat .., field_toNat ..,
    field_toInt bits 79 28 (by decide) (by omega), field_toInt bits 107 27 (by decide) (by omega), field_toNat ..⟩

/-- Settles O44: the numeric fields hold the values of their bits, and a text field is read a character at a time. -/
theorem staticFieldsStandAtTheirBits : Obligations.StaticFieldsStandAtTheirBits := by
  intro b c bits hlen htype
  exact ⟨staticFields bits, decode_message_of_long b c htype rfl hlen, field_toNat .., field_toNat .., field_toNat ..,
    field_toNat .., textChars_field (m := 7) (by omega), textChars_field (m := 20) (by omega), field_toNat .., field_toNat ..,
    field_toNat .., field_toNat .., field_toNat .., field_toNat .., field_toNat .., field_toNat .., field_toNat ..,
    field_toNat .., field_toNat .., textChars_field (m := 20) (by omega)⟩

/-- Settles O51: each class is an interval of raw values, and a raw value is its degrees in units of 1/600000, or of 1/10 for a
course. -/
theorem classesAgreeWithDegrees : Obligations.ClassesAgreeWithDegrees := by
  refine ⟨fun lon => ⟨?_, ?_⟩, fun lat => ⟨?_, ?_⟩, fun cog => ⟨?_, ?_⟩⟩
  · exact lonClass_eq_unavailable_iff.trans (degrees_eq_iff (d := 181)).symm
  · exact lonClass_eq_available_iff.trans (and_congr (le_degrees_iff (d := -180)) (degrees_le_iff (d := 180))).symm
  · exact latClass_eq_unavailable_iff.trans (degrees_eq_iff (d := 91)).symm
  · exact latClass_eq_available_iff.trans (and_congr (le_degrees_iff (d := -90)) (degrees_le_iff (d := 90))).symm
  · exact cogClass_eq_unavailable_iff.trans (courseDegrees_eq_iff (d := 360)).symm
  · exact cogClass_eq_available_iff.trans (courseDegrees_lt_iff (d := 360)).symm

/-- Settles O36: the two ranges are the branches of `armorValue`, and each value has one character (`armorByte_of_armorValue`). -/
theorem armorAlphabetHasTwoRanges : Obligations.ArmorAlphabetHasTwoRanges := by
  refine ⟨fun c => ⟨fun hlow => if_pos hlow, fun hhigh => ?_, fun hout => ?_, fun v => armorByte_of_armorValue⟩, armorByte_toNat⟩
  · have hlow : ¬ (0x30 ≤ c.toNat ∧ c.toNat ≤ 0x57) := by omega
    exact (if_neg hlow).trans (if_pos hhigh)
  · exact (if_neg hout.1).trans (if_neg hout.2)

end Sys2Proof.Machine

/-! SUPPORT. Family 40_operations.md: what a FEED does from its first eviction to its final record, the records of a TICK and a FEED,
and the obligations of the operations. -/

namespace Sys2Proof.Machine

open Claim

/-! ### The records of an eviction and of a line (R101, R105, R163) -/

/-- The record `r` can end the output of line `n` when the table after it is `groups` (R105): an Error or a Decoded of the line, or
a Buffered that tells of a group of that table. -/
inductive EndsLine (n : Tick) (groups : Table) : Record → Prop
  | error (e : ErrorKind) (raw : Line) : EndsLine n groups (errorRecord n e raw)
  | decoded (info : Meta) (fill : Fin 6) (bitlen : Nat) (d : DecodedMessage) :
      EndsLine n groups (.decoded n info fill bitlen d)
  | buffered {key : Key} {g : Group} (h : lookup key groups = some g) :
      EndsLine n groups (.buffered n key g.count (filledNumbers g))

theorem errorCode_mem_finalCodes (e : ErrorKind) : errorCode e ∈ [1, 2, 4, 5, 6] := by
  cases e <;> simp [errorCode]

theorem EndsLine.isFinal {n : Tick} {groups : Table} {r : Record} (h : EndsLine n groups r) : isFinal n r := by
  cases h with
  | error e raw => exact ⟨rfl, errorCode_mem_finalCodes e⟩
  | decoded => rfl
  | buffered => rfl

/-- The filled numbers are what a record is to list of a group (R163, R165). -/
theorem listsFilled_filledNumbers (g : Group) : listsFilled g (filledNumbers g) := by
  refine ⟨fun j => ?_, filledNumbers_pairwise g⟩
  rw [filledNumbers, mem_filledFrom, Option.isSome_iff_exists]
  simp only [Option.join_eq_some_iff]

/-- Idle eviction at the start of an operation reports groups of the table (R160, R163). -/
theorem mem_out_evictIdle_beginOutput {now : Tick} {s : State} {r : Record}
    (h : r ∈ (evictIdle now (beginOutput s)).out) : ∃ e ∈ s.groups, r = evictedRecord .idle e := by
  simp only [evictIdle_out, beginOutput_out, List.nil_append, List.mem_map, mem_evictSort] at h
  obtain ⟨e, he, rfl⟩ := h
  exact ⟨e, List.mem_of_mem_filter he, rfl⟩

/-! ### What a FEED does (R104) -/

/-- The decode of a payload ends the line, whatever the table holds (R110). -/
theorem decodePayload_endsLine (c : FeedContext) (info : Meta) (payload : Line) (fill : Fin 6) (s : State) :
    ∃ r, decodePayload c info payload fill s = .next (emit r s) ∧ EndsLine c.lineNo s.groups r := by
  obtain ⟨r, heq, ⟨e, rfl⟩ | ⟨bitlen, d, rfl⟩⟩ := decodePayload_eq c info payload fill
  · exact ⟨_, heq s, .error e c.raw⟩
  · exact ⟨_, heq s, .decoded info fill bitlen d⟩

/-- A fragment's stage ends the line in the state that reassembly leaves: with a Buffered for the group it leaves pending, or with
the decode of the message it completes (R104, R165). -/
theorem runSentence_fragment {c : FeedContext} {r : RawSentence} (h : r.fields.count ≠ 1) (s : State) :
    ∃ final, runSentence c r s = .next (emit final (reassemble r.fields c.now s).1) ∧
      EndsLine c.lineNo (reassemble r.fields c.now s).1.groups final := by
  rcases hr : reassemble r.fields c.now s with ⟨u, result⟩
  cases result with
  | pending key filled =>
    obtain ⟨-, g, hg, hcount, rfl⟩ := reassemble_pending hr
    exact ⟨_, runSentence_pending h hr, hcount ▸ .buffered hg⟩
  | complete payload fill =>
    rw [runSentence_complete h hr]
    exact decodePayload_endsLine ..

/-- The sentence-level stage changes the table and the output alone, and adds to the output at most one capacity eviction and then
the record that ends the line (R104, R105, R162). -/
theorem runSentence_spec (c : FeedContext) (r : RawSentence) (s : State) :
    ∃ (groups : Table) (caps : List (Key × Group)) (final : Record), caps.length ≤ 1 ∧ (∀ e ∈ caps, e ∈ s.groups) ∧
      runSentence c r s =
        .next { s with groups := groups, out := s.out ++ caps.map (evictedRecord .capacity) ++ [final] } ∧
      EndsLine c.lineNo groups final := by
  by_cases hcount : r.fields.count = 1
  · obtain ⟨final, heq, hfinal⟩ := decodePayload_endsLine c (metaOf r) r.fields.payload r.fields.fill s
    exact ⟨s.groups, [], final, Nat.zero_le 1, by simp, by rw [runSentence_single hcount, heq]; simp [emit], hfinal⟩
  · obtain ⟨final, heq, hfinal⟩ := runSentence_fragment hcount s
    obtain ⟨groups, caps, hlen, hmem, hstate, -⟩ := reassemble_frame r.fields c.now s
    rw [hstate] at heq hfinal
    exact ⟨groups, caps, final, hlen, hmem, heq, hfinal⟩

/-- A FEED changes the counter, the table and the output alone; its output is that of a TICK, at most one capacity eviction of a
group held before, and the record that ends the line (R104, R105). -/
theorem execFeed_spec (line : Line) (now : Tick) (s : State) :
    ∃ (groups : Table) (caps : List (Key × Group)) (final : Record), caps.length ≤ 1 ∧ (∀ e ∈ caps, e ∈ s.groups) ∧
      execFeed line now s =
        .next { s with groups := groups
                       feedCount := s.feedCount + 1#64
                       out := (evictIdle now (beginOutput s)).out ++ caps.map (evictedRecord .capacity) ++ [final] } ∧
      EndsLine s.feedCount groups final := by
  cases hp : parse s.build line with
  | error e =>
    refine ⟨(beginFeed now s).groups, [], _, Nat.zero_le 1, by simp, ?_, .error e line⟩
    rw [execFeed_of_error now hp, List.map_nil, List.append_nil]
    rfl
  | ok r =>
    obtain ⟨groups, caps, final, hlen, hmem, heq, hfinal⟩ := runSentence_spec (feedContext line now s) r (beginFeed now s)
    refine ⟨groups, caps, final, hlen, fun e he => List.mem_of_mem_filter (hmem e he), ?_, hfinal⟩
    rw [execFeed_of_sentence now hp, heq]
    rfl

/-- A record that a TICK or a FEED returns is the Evicted record of a group held before, or it ends the FEED's line (R101). -/
theorem mem_out_of_tick_or_feed {i : Instr} {line : Line} {now : Tick} {s t : State} {r : Record}
    (hi : i = .tick now ∨ i = .feed line now) (hrun : exec i s = .next t) (hr : r ∈ t.out) :
    (∃ why, ∃ e ∈ s.groups, r = evictedRecord why e) ∨ EndsLine s.feedCount t.groups r := by
  rcases hi with rfl | rfl
  · cases hrun
    exact .inl ⟨.idle, mem_out_evictIdle_beginOutput hr⟩
  · obtain ⟨groups, caps, final, -, hcaps, heq, hfinal⟩ := execFeed_spec line now s
    cases heq.symm.trans hrun
    simp only [List.mem_append, List.mem_map, List.mem_singleton] at hr
    rcases hr with (hidle | ⟨e, he, rfl⟩) | rfl
    · exact .inl ⟨.idle, mem_out_evictIdle_beginOutput hidle⟩
    · exact .inl ⟨.capacity, e, hcaps e he, rfl⟩
    · exact .inr hfinal

/-! ### What the port does (R100) -/

theorem step_of_nothing_presented {s : State} (h : s.inbox = []) : step s = .next s := by
  simp [step, fetch, h]

theorem step_of_operation {s : State} {w : OpWord} {ws : List OpWord} {i : Instr} (h : s.inbox = w :: ws)
    (hw : decodeOp w = .ok i) : step s = exec i { s with inbox := ws } := by
  simp [step, fetch, h, hw]

theorem step_of_no_operation {s : State} {w : OpWord} {ws : List OpWord} {e : DecodeError} (h : s.inbox = w :: ws)
    (hw : decodeOp w = .error e) : step s = .refused (.notAnOperation e) := by
  simp [step, fetch, h, hw]

/-! ### What an encoding spells, by level (R85) -/

theorem decode_sentence_eq_ok {b : Build} {c : FeedContext} {line : Line} {i : Instr} :
    decode b (.sentence c line) = .ok i ↔ ∃ r, parse b line = .ok r ∧ i = r.toInstr c := by
  cases hp : parse b line <;> simp [decode, hp, eq_comm]

theorem decode_message_eq_ok {b : Build} {c : MessageContext} {bits : Bits} {i : Instr} :
    decode b (.message c bits) = .ok i ↔ ∃ m, decodeMessage bits = .ok m ∧ i = m.toInstr c bits.length := by
  cases hm : decodeMessage bits <;> simp [decode, hm, eq_comm]

theorem exec_sentence (sid : Sid) (c : FeedContext) (f : SentenceFields) (s : State) :
    exec (sentence sid c f) s = runSentence c { sid := sid, fields := f } s := by
  cases sid <;> rfl

/-- The decode of a payload runs the message instruction that its bitstream spells (R110, R190). -/
theorem decodePayload_of_decode {b : Build} {c : FeedContext} {info : Meta} {payload : Line} {fill : Fin 6} {bits : Bits}
    {i : Instr} (ha : armorDecode payload fill = .ok bits)
    (hd : decode b (.message { lineNo := c.lineNo, info := info, fillUsed := fill } bits) = .ok i) (s : State) :
    decodePayload c info payload fill s = exec i s := by
  obtain ⟨m, hm, rfl⟩ := decode_message_eq_ok.1 hd
  exact decodePayload_of_message ha hm s

/-! ### The obligations -/

/-- Settles O13: `execFeed_spec`, read for the shape of the output. -/
theorem feedEndsInExactlyOneFinalRecord : Obligations.FeedEndsInExactlyOneFinalRecord := by
  intro line now s
  obtain ⟨groups, caps, final, hlen, -, heq, hfinal⟩ := execFeed_spec line now s
  refine ⟨_, _, caps.map (evictedRecord .capacity), final, rfl, heq, rfl, by simpa using hlen, ?_, ?_, hfinal.isFinal, rfl⟩
  · exact List.forall_mem_map.2 fun _ _ => ⟨rfl, rfl⟩
  · intro r hr
    obtain ⟨e, -, rfl⟩ := mem_out_evictIdle_beginOutput hr
    exact ⟨rfl, rfl⟩

/-- Settles O56: an Evicted record ends no line, so it is that of a group held before; a Buffered record is no Evicted one, so it
ends the line, which ties it to the table after. -/
theorem recordsListTheFilledSlots : Obligations.RecordsListTheFilledSlots := by
  refine fun i line now s t hi hrun => ⟨fun code why k count filled last hr => ?_, fun n k count filled hr => ?_⟩
  · rcases mem_out_of_tick_or_feed hi hrun hr with ⟨_, e, he, heq⟩ | hends
    · cases heq
      exact ⟨rfl, e.2, he, rfl, rfl, listsFilled_filledNumbers e.2⟩
    · cases hends
  · rcases mem_out_of_tick_or_feed hi hrun hr with ⟨_, e, -, heq⟩ | hends
    · cases heq
    · cases hends with
      | buffered hg => exact ⟨rfl, _, hg, rfl, listsFilled_filledNumbers _⟩

/-- Settles O2: the guard of R102 holds, and the operands stand for their values or defaults (R24, R25). -/
theorem resetLoadsConfigurationAndEmptiesTable : Obligations.ResetLoadsConfigurationAndEmptiesTable :=
  fun _ _ _ hm => if_neg (Nat.not_lt.2 hm)

/-- Settles O6, by the three cases of the port. -/
theorem stepPerformsThePresentedOperation : Obligations.StepPerformsThePresentedOperation :=
  fun _ => ⟨step_of_nothing_presented, fun _ _ _ => step_of_operation, fun _ _ _ => step_of_no_operation⟩

/-- Settles O15: the line parses, and after `beginFeed`, which is a TICK that takes a line number, its sentence's stage is run. -/
theorem feedRunsTheSentenceItsLineSpells : Obligations.FeedRunsTheSentenceItsLineSpells := by
  intro line now s i hd
  obtain ⟨r, hp, rfl⟩ := decode_sentence_eq_ok.1 hd
  refine ⟨evictIdle now (beginOutput s), rfl, ?_⟩
  rw [exec_toInstr]
  exact execFeed_of_sentence now hp

/-- Settles O16: the decode of a payload runs the message it spells, and a single fragment goes straight to that decode (R150). -/
theorem sentenceRunsTheMessageItsPayloadSpells : Obligations.SentenceRunsTheMessageItsPayloadSpells := by
  refine ⟨fun b c info payload fill s bits i ha hd => decodePayload_of_decode ha hd s, ?_⟩
  intro b sid c f s bits i hcount ha hd
  rw [exec_sentence, runSentence_single hcount]
  exact decodePayload_of_decode ha hd s

end Sys2Proof.Machine

/-! SUPPORT. Family 41_sentence_parser.md: the parse sees the stripped line alone, each framing and field check by the condition it
fails on, the ranges of what decodes, the sentence id and the start byte in a stage's records, and the obligations of the parser. -/

namespace Sys2Proof

open Claim

/-! ### Terminators (R121) -/

theorem isTerminator_eq_false_iff {c : Byte} : isTerminator c = false ↔ c ≠ 0x0D#8 ∧ c ≠ 0x0A#8 := by simp [isTerminator]

theorem isTerminator_getLast?_stripTerminators {line : Line} {c : Byte} (h : (stripTerminators line).getLast? = some c) :
    isTerminator c = false := by
  obtain ⟨hne, rfl⟩ := List.mem_getLast?_eq_getLast h
  exact Bool.eq_false_iff.2 (List.rdropWhile_last_not _ _ hne)

@[simp] theorem stripTerminators_stripTerminators (line : Line) :
    stripTerminators (stripTerminators line) = stripTerminators line := List.rdropWhile_idempotent _ _

/-- The parser sees nothing of a line but its stripped line (R121). -/
theorem parse_congr {b : Build} {line line' : Line} (h : stripTerminators line = stripTerminators line') :
    parse b line = parse b line' := by
  simp only [parse, frame, h]

/-! ### The framing checks (R122 to R128) -/

theorem startOf_eq_none {c : Byte} : startOf c = none ↔ c ≠ 0x21#8 ∧ c ≠ 0x24#8 := by
  unfold startOf
  split_ifs <;> simp_all

theorem exists_eq_startByte {c : Byte} (h : c = 0x21#8 ∨ c = 0x24#8) : ∃ st, c = startByte st := by
  rcases h with rfl | rfl
  exacts [⟨.bang, rfl⟩, ⟨.dollar, rfl⟩]

theorem parse_of_frame_error {b : Build} {line : Line} {e : ErrorKind} (h : frame b line = .error e) :
    parse b line = .error e := by
  simp [parse, h]

theorem frame_of_tooLong {b : Build} {line : Line} (h : tooLong b (stripTerminators line) = true) :
    frame b line = .error (.malformed .lineTooLong) := by
  simp [frame, h]

section Framing

variable {b : Build} {line : Line} (hlen : tooLong b (stripTerminators line) = false)
include hlen

theorem frame_of_noStart (h : ∀ c, (stripTerminators line).head? = some c → startOf c = none) :
    frame b line = .error (.malformed .noStart) := by
  cases ht : stripTerminators line with
  | nil => simp [frame, ht, ht ▸ hlen]
  | cons c rest => simp [frame, ht, ht ▸ hlen, h c (by simp [ht])]

theorem frame_of_noStar {st : Start} {rest : Line} (ht : stripTerminators line = startByte st :: rest)
    (h : 0x2A#8 ∉ rest) : frame b line = .error (.malformed .noStar) := by
  simp [frame, ht, ht ▸ hlen, startOf_eq_some.2 rfl, splitAtStar_eq_none.2 h]

theorem frame_of_badChecksumField {st : Start} {region cf : Line}
    (ht : stripTerminators line = startByte st :: (region ++ 0x2A#8 :: cf)) (h : 0x2A#8 ∉ region)
    (hcf : hexPair cf = none) : frame b line = .error (.malformed .badChecksumField) := by
  simp [frame, ht, ht ▸ hlen, startOf_eq_some.2 rfl, splitAtStar_eq_some.2 ⟨rfl, h⟩, hcf]

end Framing

theorem hexPair_eq_none {s : Line} :
    hexPair s = none ↔ ¬ ∃ h1 h2 v1 v2, s = [h1, h2] ∧ spellsHex h1 v1 ∧ spellsHex h2 v2 := by
  rw [Option.eq_none_iff_forall_ne_some]
  simp only [ne_eq, hexPair_eq_some_iff_spellsHex]
  grind

/-- A framed line passes the framing checks, and its start byte is one of the two. -/
theorem frame_of_framed {b : Build} {line : Line} {start : Byte} {body : Line} {supplied : Byte}
    (h : framed b line start body supplied) :
    ∃ st, start = startByte st ∧ frame b line = .ok { start := st, region := body, supplied := supplied } := by
  have ⟨_, _, _, _, _, _, _, hstart, _⟩ := h
  obtain ⟨st, rfl⟩ := exists_eq_startByte hstart
  exact ⟨st, rfl, frame_eq_ok_iff_framed.2 h⟩

/-- A framed line with another checksum than its body's is a mismatch, whatever its fields are (R128). -/
theorem parse_of_wrong_checksum {b : Build} {line : Line} {start : Byte} {body : Line} {supplied : Byte}
    (h : framed b line start body supplied) (hsum : xorBytes body ≠ supplied) :
    parse b line = .error (.checksumMismatch (xorBytes body) supplied) := by
  obtain ⟨st, -, hframe⟩ := frame_of_framed h
  simp [parse, hframe, hsum]

/-- A framed line with its body's checksum is parsed by the field checks, on the pieces between the commas (R129). -/
theorem parse_of_right_checksum {b : Build} {line : Line} {start : Byte} {body : Line} {fields : List Line}
    (h : framed b line start body (xorBytes body)) (hne : fields ≠ []) (hfree : ∀ f ∈ fields, 0x2C#8 ∉ f)
    (hjoin : start :: body = List.intercalate [0x2C#8] fields) :
    ∃ st, parse b line = parseFields b { start := st, region := body, supplied := xorBytes body } fields := by
  obtain ⟨st, rfl, hframe⟩ := frame_of_framed h
  exact ⟨st, by simp [parse, hframe, (splitAtByte_eq_iff hne).2 ⟨hjoin, hfree⟩]⟩

/-! ### The field checks (R129 to R137) -/

theorem isAddress_iff {f0 : Line} : isAddress f0 ↔ ∃ t1 t2 sid, addressOf f0 = some (t1, t2, sid) := by
  simp only [addressOf_eq_some, isUpper_iff]
  constructor
  · rintro ⟨s, t1, t2, x, rfl, hs, h1, h2, hx⟩
    obtain ⟨st, rfl⟩ := exists_eq_startByte hs
    obtain ⟨sid, rfl⟩ : ∃ sid, x = sidByte sid := by
      rcases hx with rfl | rfl
      exacts [⟨.vdm, rfl⟩, ⟨.vdo, rfl⟩]
    exact ⟨t1, t2, sid, _, rfl, by simp [startOf_eq_some.2 rfl], h1, h2⟩
  · rintro ⟨t1, t2, sid, s, rfl, hs, h1, h2⟩
    obtain ⟨st, hst⟩ := Option.isSome_iff_exists.1 hs
    obtain rfl := startOf_eq_some.1 hst
    exact ⟨_, t1, t2, _, rfl, by cases st <;> simp [startByte], h1, h2, by cases sid <;> simp [sidByte]⟩

theorem addressOf_eq_none {f0 : Line} : addressOf f0 = none ↔ ¬ isAddress f0 := by
  simp [isAddress_iff, Option.eq_none_iff_forall_ne_some]

theorem countOf_eq_none {b : Build} {f1 : Line} :
    countOf b f1 = none ↔ ∀ n, spellsDecimal f1 n → n < 1 ∨ b.maxFragments < n := by
  simp only [Option.eq_none_iff_forall_ne_some, ne_eq, countOf_eq_some, dec_eq_some_iff_spellsDecimal, not_and_or, not_le,
    imp_iff_not_or]

theorem numberOf_eq_none {f2 : Line} : numberOf f2 = none ↔ ∀ k, spellsDecimal f2 k → k < 1 := by
  simp only [Option.eq_none_iff_forall_ne_some, ne_eq, numberOf_eq_some, dec_eq_some_iff_spellsDecimal, not_and, not_le]

/-- The sequential id is read where the field is empty or spells a number in range (R134, R135). -/
theorem exists_seqOf_eq_some_iff {b : Build} {f3 : Line} :
    (∃ p, seqOf b f3 = some p) ↔ f3 = [] ∨ ∃ q, spellsDecimal f3 q ∧ q ≤ b.seqIdMax := by
  simp only [Prod.exists, seqOf_eq_some, dec_eq_some_iff_spellsDecimal]
  constructor
  · rintro ⟨empty, q, ⟨h, -, -⟩ | ⟨-, hq⟩⟩
    exacts [.inl h, .inr ⟨q, hq⟩]
  · rintro (h | ⟨q, hq⟩)
    exacts [⟨true, 0, .inl ⟨h, rfl, rfl⟩⟩, ⟨false, q, .inr ⟨rfl, hq⟩⟩]

theorem seqOf_eq_none {b : Build} {f3 : Line} :
    seqOf b f3 = none ↔ f3 ≠ [] ∧ ∀ q, spellsDecimal f3 q → b.seqIdMax < q := by
  rw [← Option.not_isSome_iff_eq_none, Option.isSome_iff_exists, exists_seqOf_eq_some_iff]
  simp only [not_or, not_exists, not_and, not_le, ne_eq]

theorem channelOf_eq_none {f4 : Line} : channelOf f4 = none ↔ 1 < f4.length := by
  rcases f4 with _ | ⟨c, _ | ⟨d, ds⟩⟩ <;> simp [channelOf]

theorem fillOf_eq_none {f6 : Line} : fillOf f6 = none ↔ ¬ ∃ d : Nat, d ≤ 5 ∧ f6 = [BitVec.ofNat 8 (0x30 + d)] := by
  simp only [Option.eq_none_iff_forall_ne_some, ne_eq, fillOf_eq_some, not_exists, not_and, Fin.forall_iff, Nat.lt_succ_iff]

theorem parseFields_of_length_ne {b : Build} {fr : Frame} {fields : List Line} (h : fields.length ≠ 7) :
    parseFields b fr fields = .error (.malformed .fieldCount) := by
  fun_cases parseFields b fr fields with
  | case9 => rfl
  | _ => simp at h

/-! ### The ranges of what decodes (R130 to R138, R193) -/

/-- A sentence that parses is in the ranges of its fields. -/
theorem wellFormed_of_parse {b : Build} {line : Line} {r : RawSentence} (h : parse b line = .ok r) :
    r.fields.wellFormed b = true := by
  obtain ⟨f1, f2, f3, f4, -, hu1, hu2, hf, -⟩ := parse_eq_ok_iff_spelledInFrame.1 h
  obtain ⟨-, hcount, hmax, -, hnumber, hle, hseq, rfl, hchannel, hpayload⟩ := hf
  refine SentenceFields.wellFormed_iff.2 ⟨hu1, hu2, ⟨hcount, hmax⟩, ⟨hnumber, hle⟩, ?_, ?_,
    fun c hc => isFieldByte_iff.2 (hchannel c hc), fun c hc => isFieldByte_iff.2 (hpayload c hc)⟩
  · rcases hseq with ⟨-, -, hzero⟩ | ⟨-, -, hq⟩
    exacts [hzero ▸ Nat.zero_le _, hq]
  · rcases hseq with ⟨-, -, hzero⟩ | ⟨hempty, -⟩
    exacts [.inr hzero, .inl hempty]

theorem wellFormed_toInstr {b : Build} (c : FeedContext) (r : RawSentence) :
    (r.toInstr c).wellFormed b = r.fields.wellFormed b := by
  obtain ⟨sid, f⟩ := r
  cases sid <;> rfl

/-- A message decodes exactly when its type is supported and it reaches the end of that type's layout (R190, R193). -/
theorem decodeMessage_eq_ok {bs : Bits} {m : Message} :
    decodeMessage bs = .ok m ↔
      ∃ need, requiredLength (U bs 0 6) = some need ∧ need ≤ bs.length ∧ m = messageOfType (U bs 0 6) bs := by
  constructor
  · fun_cases decodeMessage bs with
    | case4 _ need hreq hlong =>
      rintro ⟨⟩
      exact ⟨need, hreq, Nat.le_of_not_lt hlong, rfl⟩
    | _ => nofun
  · rintro ⟨need, hreq, hlong, rfl⟩
    exact decodeMessage_of_long rfl hreq hlong

/-- The supported types and the ends of their layouts (R190, R193). -/
theorem requiredLength_eq_some {t need : Nat} :
    requiredLength t = some need ↔ (t ∈ [1, 2, 3] ∧ need = 143) ∨ (t = 4 ∧ need = 138) ∨ (t = 5 ∧ need = 422) := by
  simp only [List.mem_cons, List.not_mem_nil, or_false]
  unfold requiredLength
  split_ifs <;> simp <;> omega

/-- A message that decodes reaches the end of its layout (R193). -/
theorem wellFormed_of_decodeMessage {b : Build} {c : MessageContext} {bs : Bits} {m : Message}
    (h : decodeMessage bs = .ok m) : (m.toInstr c bs.length).wellFormed b = true := by
  obtain ⟨need, hreq, hlong, rfl⟩ := decodeMessage_eq_ok.1 h
  generalize U bs 0 6 = t at hreq
  rcases requiredLength_eq_some.1 hreq with ⟨ht, rfl⟩ | ⟨rfl, rfl⟩ | ⟨rfl, rfl⟩
  · simp only [List.mem_cons, List.not_mem_nil, or_false] at ht
    rcases ht with rfl | rfl | rfl <;> exact decide_eq_true hlong
  · exact decide_eq_true hlong
  · exact decide_eq_true hlong

/-- An operation that decodes is well-formed, but for a RESET with `max_groups` 0 (R60, R102). -/
theorem wellFormed_of_decodeOp {b : Build} {w : OpWord} {i : Instr} (h : decodeOp w = .ok i)
    (hw : w.operands.head? ≠ some (.nat 0)) : i.wellFormed b = true := by
  rcases Machine.decodeOp_cases h with ⟨m, t, rfl, rfl⟩ | ⟨line, now, rfl, -⟩ | ⟨now, rfl, -⟩
  · cases m with
    | none => rfl
    | some n =>
      have hn : n ≠ 0 := by rintro rfl; exact hw rfl
      simpa [Instr.wellFormed] using Nat.one_le_iff_ne_zero.2 hn
  · rfl
  · rfl

end Sys2Proof

namespace Sys2Proof.Machine

open Claim

/-! ### The sentence id and the start byte in a stage's records (R140, R158) -/

/-- The decode of a payload emits one record whatever the state, and replacing the sentence id and the start byte in the meta it is
given replaces them in that record and changes nothing else. -/
theorem decodePayload_withSidAndStart (c : FeedContext) (info : Meta) (payload : Line) (fill : Fin 6) :
    ∃ final, ∀ s, decodePayload c info payload fill s = .next (emit final s) ∧
      ∀ sid start, decodePayload c { info with sid := sid, start := start } payload fill s =
        .next (emit (withSidAndStart sid start final) s) := by
  cases ha : armorDecode payload fill with
  | error e => exact ⟨_, fun s => ⟨decodePayload_of_armor_error ha s, fun _ _ => decodePayload_of_armor_error ha s⟩⟩
  | ok bits =>
    cases hm : decodeMessage bits with
    | error e =>
      exact ⟨_, fun s => ⟨decodePayload_of_message_error ha hm s, fun _ _ => decodePayload_of_message_error ha hm s⟩⟩
    | ok m =>
      simp only [decodePayload_of_message ha hm]
      cases m <;> exact ⟨_, fun s => ⟨rfl, fun _ _ => rfl⟩⟩

/-- The sentence with its sentence id and its start byte replaced. -/
def retagged (r : RawSentence) (sid : Sid) (start : Start) : RawSentence :=
  { sid := sid, fields := { r.fields with start := start } }

/-- Reassembly sees neither (R158). -/
theorem reassemble_retagged (r : RawSentence) (sid : Sid) (start : Start) (now : Tick) (s : State) :
    reassemble (retagged r sid start).fields now s = reassemble r.fields now s := rfl

/-- A sentence's stage adds at most a capacity eviction to the output and then its final record, and only in that record do the
sentence id and the start byte show (R140, R158). -/
theorem runSentence_retagged (c : FeedContext) (r : RawSentence) (s : State) :
    ∃ (u : State) (caps : List (Key × Group)) (final : Record),
      u.out = s.out ++ caps.map (evictedRecord .capacity) ∧
      runSentence c r s = .next (emit final u) ∧
      ∀ sid start, runSentence c (retagged r sid start) s = .next (emit (withSidAndStart sid start final) u) := by
  by_cases hcount : r.fields.count = 1
  · obtain ⟨final, hfinal⟩ := decodePayload_withSidAndStart c (metaOf r) r.fields.payload r.fields.fill
    obtain ⟨heq, hretagged⟩ := hfinal s
    refine ⟨s, [], final, by simp, (runSentence_single hcount s).trans heq, fun sid start => ?_⟩
    exact (runSentence_single (r := retagged r sid start) hcount s).trans (hretagged sid start)
  · obtain ⟨groups, caps, -, -, hstate, -⟩ := reassemble_frame r.fields c.now s
    have hout : (reassemble r.fields c.now s).1.out = s.out ++ caps.map (evictedRecord .capacity) := by rw [hstate]
    rcases hr : reassemble r.fields c.now s with ⟨u, result⟩
    rw [hr] at hout
    have hr' := fun sid start => (reassemble_retagged r sid start c.now s).trans hr
    cases result with
    | pending key filled =>
      exact ⟨u, caps, _, hout, runSentence_pending hcount hr, fun sid start => runSentence_pending hcount (hr' sid start)⟩
    | complete payload fill =>
      obtain ⟨final, hfinal⟩ := decodePayload_withSidAndStart c (metaOf r) payload fill
      obtain ⟨heq, hretagged⟩ := hfinal u
      refine ⟨u, caps, final, hout, (runSentence_complete hcount hr).trans heq, fun sid start => ?_⟩
      exact (runSentence_complete (r := retagged r sid start) hcount (hr' sid start)).trans (hretagged sid start)

/-! ### The obligations -/

/-- Settles O25: both stages are `runSentence`, on sentences that differ by `retagged`; the records before the final one are
evictions, which `withSidAndStart` leaves as they are. -/
theorem vdmAndVdoAreTreatedAlike : Obligations.VdmAndVdoAreTreatedAlike := by
  intro sid start c f s
  obtain ⟨u, caps, final, hout, heq, hretagged⟩ := runSentence_retagged c { sid := .vdm, fields := f } s
  refine ⟨emit final u, caps.map (evictedRecord .capacity) ++ [final], heq, ?_, ?_⟩
  · rw [emit_out, hout, List.append_assoc]
  · have hevicted : withSidAndStart sid start ∘ evictedRecord .capacity = evictedRecord .capacity := rfl
    rw [exec_sentence]
    refine (hretagged sid start).trans ?_
    simp [emit, hout, hevicted]

/-- Settles O30: the stripped line is the line without its terminators, and the parse sees the stripped line alone (`parse_congr`). -/
theorem terminatorsDoNotMatter : Obligations.TerminatorsDoNotMatter := by
  refine ⟨fun line => ⟨?_, fun c hc => ?_⟩, fun b line ending hend => ⟨parse_congr ?_, parse_congr ?_⟩⟩
  · obtain ⟨ending, hline, hend⟩ := exists_terminators line
    exact ⟨ending, hline, fun c hc => (isTerminator_iff c).1 (hend c hc)⟩
  · exact isTerminator_eq_false_iff.1 (isTerminator_getLast?_stripTerminators hc)
  · exact stripTerminators_append line ending fun c hc => (isTerminator_iff c).2 (hend c hc)
  · exact (stripTerminators_stripTerminators line).symm

/-- Settles O31: the checksum is held against the body before any field is read, and a FEED whose line does not parse is a TICK, a
line number and one Error record. -/
theorem wrongChecksumIsAlwaysReported : Obligations.WrongChecksumIsAlwaysReported := by
  intro line start body supplied now s hframed hsum
  have hparse := parse_of_wrong_checksum hframed hsum
  exact ⟨hparse, evictIdle now (beginOutput s), rfl, execFeed_of_error now hparse⟩

/-- Settles O32: the line is its own stripped line, and each clause is the framing check of that name. -/
theorem framingChecksComeInOrder : Obligations.FramingChecksComeInOrder := by
  intro b line hlast
  have ht : stripTerminators line = line :=
    stripTerminators_eq_self fun c hc => isTerminator_eq_false_iff.2 (hlast c hc)
  refine ⟨fun ⟨n, hn, hlong⟩ => parse_of_frame_error (frame_of_tooLong ?_), fun hlen => ?_⟩
  · simpa [ht, tooLong, hn] using hlong
  have hlen : tooLong b (stripTerminators line) = false := by rw [ht]; exact tooLong_eq_false.2 hlen
  refine ⟨fun ⟨hbang, hdollar⟩ => parse_of_frame_error (frame_of_noStart hlen fun c hc => ?_), fun hstart => ?_⟩
  · rw [ht] at hc
    rw [hc] at hbang hdollar
    exact startOf_eq_none.2 ⟨fun h => hbang (congrArg some h), fun h => hdollar (congrArg some h)⟩
  obtain ⟨st, rest, rfl⟩ : ∃ st rest, line = startByte st :: rest := by
    cases line with
    | nil => simp at hstart
    | cons c rest =>
      obtain ⟨st, rfl⟩ := exists_eq_startByte (by simpa using hstart)
      exact ⟨st, rest, rfl⟩
  refine ⟨fun hstar => ?_, fun body cf hline hfree hcf => ?_⟩
  · exact parse_of_frame_error (frame_of_noStar hlen ht fun h => hstar (List.mem_cons_of_mem _ h))
  · cases body with
    | nil => cases st <;> simp [startByte] at hline
    | cons c region =>
      obtain ⟨rfl, rfl⟩ := List.cons.inj hline
      exact parse_of_frame_error (frame_of_badChecksumField hlen ht (fun h => hfree (List.mem_cons_of_mem _ h))
        (hexPair_eq_none.2 hcf))

/-- Settles O33: the line's parse is that of the field checks on its pieces, and each clause is the field check of that name, the
ones before it having read their fields. -/
theorem fieldChecksComeInOrder : Obligations.FieldChecksComeInOrder := by
  intro b line start body fields hframed hne hfree hjoin
  obtain ⟨st, hparse⟩ := parse_of_right_checksum hframed hne hfree hjoin
  rw [hparse]
  refine ⟨parseFields_of_length_ne, ?_⟩
  rintro f0 f1 f2 f3 f4 f5 f6 rfl
  refine ⟨fun h => by simp [parseFields, addressOf_eq_none.2 h], fun haddress => ?_⟩
  obtain ⟨t1, t2, sid, ha⟩ := isAddress_iff.1 haddress
  refine ⟨fun h => by simp [parseFields, ha, countOf_eq_none.2 h], fun n hn hn1 hnmax => ?_⟩
  have hcount : countOf b f1 = some n := countOf_eq_some.2 ⟨dec_eq_some_iff_spellsDecimal.2 hn, hn1, hnmax⟩
  refine ⟨fun h => by simp [parseFields, ha, hcount, numberOf_eq_none.2 h], fun k hk hk1 => ?_⟩
  have hnumber : numberOf f2 = some k := numberOf_eq_some.2 ⟨dec_eq_some_iff_spellsDecimal.2 hk, hk1⟩
  refine ⟨fun h => by simp [parseFields, ha, hcount, hnumber, h], fun hkn => ?_⟩
  have hle : ¬ n < k := Nat.not_lt.2 hkn
  refine ⟨fun h => by simp [parseFields, ha, hcount, hnumber, hle, seqOf_eq_none.2 h], fun hseq => ?_⟩
  obtain ⟨q, hq⟩ := exists_seqOf_eq_some_iff.2 hseq
  refine ⟨fun h => by simp [parseFields, ha, hcount, hnumber, hle, hq, channelOf_eq_none.2 h], fun hlen hfill => ?_⟩
  obtain ⟨ch, hch⟩ := Option.ne_none_iff_exists'.1 fun h => Nat.not_lt.2 hlen (channelOf_eq_none.1 h)
  simp [parseFields, ha, hcount, hnumber, hle, hq, hch, fillOf_eq_none.2 hfill]

/-- Settles O53, level by level: the port's operations, the sentences of the grammar, the messages that reach their layout's end. -/
theorem decodedInstructionsAreWellFormed : Obligations.DecodedInstructionsAreWellFormed := by
  intro b e i hd hreset
  cases e with
  | operation w => exact wellFormed_of_decodeOp hd (hreset w rfl)
  | sentence c line =>
    obtain ⟨r, hparse, rfl⟩ := decode_sentence_eq_ok.1 hd
    rw [wellFormed_toInstr]
    exact wellFormed_of_parse hparse
  | message c bits =>
    obtain ⟨m, hm, rfl⟩ := decode_message_eq_ok.1 hd
    exact wellFormed_of_decodeMessage hm

/-- Settles O54, by evaluation of the parser and of the port's decoder. -/
theorem exampleLineDecodes : Obligations.ExampleLineDecodes := ⟨by decide, rfl⟩

end Sys2Proof.Machine

/-! SUPPORT. Family 42_fragment_reassembler.md: idle eviction, what a fragment does to its group and to the groups of other keys, the
slots that the fragments of one message fill in any order, runs of FEEDs and TICKs, and the obligations of the reassembler. -/

namespace Sys2Proof.Machine

open Claim

/-! ### Idle eviction (R160 to R164) -/

/-- With no group over the threshold, eviction does nothing. -/
theorem evictIdle_of_none_idle {now : Tick} {s : State} (h : ∀ e ∈ s.groups, isIdle s.cfgIdleTicks now e.2 = false) :
    evictIdle now s = s := by
  have hkept : s.groups.filter (fun e => !isIdle s.cfgIdleTicks now e.2) = s.groups :=
    List.filter_eq_self.2 fun e he => by simp [h e he]
  have hgone : s.groups.filter (fun e => isIdle s.cfgIdleTicks now e.2) = [] :=
    List.filter_eq_nil_iff.2 fun e he => by simp [h e he]
  simp [evictIdle, hkept, hgone, evictSort]

/-- After eviction no group is over the threshold. -/
theorem isIdle_of_mem_evictIdle {now : Tick} {s : State} {e : Key × Group} (h : e ∈ (evictIdle now s).groups) :
    isIdle s.cfgIdleTicks now e.2 = false := by
  simpa using (List.mem_filter.1 h).2

/-- A key holds its group after eviction exactly when the group is not over the threshold (R160). -/
theorem lookup_evictIdle {now : Tick} {s : State} {k : Key} {g : Group} (hwf : tableWf s.groups = true)
    (hl : lookup k s.groups = some g) :
    lookup k (evictIdle now s).groups =
      if s.cfgIdleTicks.toNat < now.toNat - g.lastActivity.toNat then none else some g := by
  rw [evictIdle_groups, lookup_filter _ hwf hl, isIdle_eq]
  by_cases hidle : s.cfgIdleTicks.toNat < now.toNat - g.lastActivity.toNat <;> simp [hidle]

/-- Eviction reports every group that it removes (R163), so a key of which no record tells is as it was. -/
theorem lookup_evictIdle_of_unreported {now : Tick} {s : State} {key : Key} (hwf : tableWf s.groups = true)
    (h : ∀ r ∈ (evictIdle now s).out, evictsKey key r = false) :
    lookup key (evictIdle now s).groups = lookup key s.groups := by
  cases hl : lookup key s.groups with
  | none => exact lookup_filter_none _ hl
  | some g =>
    have hfresh : isIdle s.cfgIdleTicks now g = false := by
      by_contra hidle
      have hmem : (key, g) ∈ s.groups.filter (fun e => isIdle s.cfgIdleTicks now e.2) :=
        List.mem_filter.2 ⟨mem_of_lookup hl, by simpa using hidle⟩
      have hreported : evictedRecord .idle (key, g) ∈ (evictIdle now s).out :=
        List.mem_append_right _ (List.mem_map_of_mem (mem_evictSort.2 hmem))
      simpa [evictsKey, evictedRecord] using h _ hreported
    rw [evictIdle_groups, lookup_filter _ hwf hl, hfresh]
    rfl

/-! ### A fragment that opens a group, and one that completes it (R155, R157) -/

theorem makeRoom_of_lt {s : State} (h : s.groups.length < s.cfgMaxGroups) : makeRoom s = s := if_neg (Nat.not_le.2 h)

theorem makeRoom_of_full {s : State} (h : s.cfgMaxGroups ≤ s.groups.length) : makeRoom s = evictForCapacity s := if_pos h

/-- A group whose slots are all filled gives their payloads in number order and the fill of the last one (R157). -/
theorem closeGroup_of_filled {key : Key} {g : Group} {front : List Slot} {last : Slot}
    (hslots : g.slots = (front ++ [last]).map some) (hcount : g.count = front.length + 1) (s : State) :
    closeGroup key g s =
      ({ s with groups := remove key s.groups }, .complete ((front ++ [last]).flatMap Slot.payload) last.fill) := by
  have hfull : allFilled g = true := by simp [allFilled, hslots]
  have hpayload : combinedPayload g = (front ++ [last]).flatMap Slot.payload := by
    simp [combinedPayload, hslots, List.flatMap_map]
  have hfill : lastFill g = last.fill := by simp [lastFill, slotAt, hslots, hcount]
  rw [closeGroup_complete hfull, hpayload, hfill]

/-- A fragment whose group is not complete is stored with it and reported as Buffered (R104, R165). -/
theorem exec_sentence_stores {sid : Sid} {c : FeedContext} {f : SentenceFields} {s u : State} {g : Group}
    (hmany : f.count ≠ 1) (hopen : allFilled g = false) (h : reassemble f c.now s = closeGroup (keyOf f) g u) :
    exec (sentence sid c f) s =
      .next { u with groups := insert (keyOf f) g u.groups
                     out := u.out ++ [.buffered c.lineNo (keyOf f) f.count (filledNumbers g)] } := by
  rw [closeGroup_pending hopen] at h
  rw [exec_sentence, runSentence_pending hmany h]
  rfl

/-- A fragment that starts a new group is stored alone, and its number is the one reported (R155, R165). -/
theorem exec_sentence_opens {sid : Sid} {c : FeedContext} {f : SentenceFields} {s u : State} (hcount : 2 ≤ f.count)
    (hpos : 1 ≤ f.number) (hle : f.number ≤ f.count)
    (h : reassemble f c.now s = closeGroup (keyOf f) (writeSlot f c.now (newGroup f c.now)) u) :
    exec (sentence sid c f) s =
      .next { u with
        groups := insert (keyOf f)
          { count := f.count
            slots := (List.replicate f.count none).set (f.number - 1) (some { payload := f.payload, fill := f.fill })
            lastActivity := c.now } u.groups
        out := u.out ++ [.buffered c.lineNo (keyOf f) f.count [f.number]] } := by
  rw [exec_sentence_stores (Nat.ne_of_gt hcount) (allFilled_writeSlot_newGroup c.now hcount) h,
    filledNumbers_writeSlot_newGroup c.now hpos hle]
  rfl

/-- Both sentence instructions on a fragment that completes its message (R104). -/
theorem exec_sentence_complete {sid : Sid} {c : FeedContext} {f : SentenceFields} {s u : State} {payload : Line}
    {fill : Fin 6} (hcount : f.count ≠ 1) (h : reassemble f c.now s = (u, .complete payload fill)) :
    exec (sentence sid c f) s = decodePayload c (metaOf { sid := sid, fields := f }) payload fill u :=
  (exec_sentence sid c f s).trans (runSentence_complete hcount h)

/-- The fragment that fills the last slot of its group decodes the joined payload, in the state without the group (R157). -/
theorem exec_sentence_last {sid : Sid} {c : FeedContext} {f : SentenceFields} {s : State} {g : Group} {front : List Slot}
    {last : Slot} (hmany : f.count ≠ 1) (hl : lookup (keyOf f) s.groups = some g) (hcount : g.count = f.count)
    (hfirst : f.number = 1 → slotAt g 1 = none) (hlen : front.length + 1 = g.count)
    (hslots : g.slots.set (f.number - 1) (some (slotOf f)) = (front ++ [last]).map some) :
    exec (sentence sid c f) s =
      decodePayload c (metaOf { sid := sid, fields := f }) ((front ++ [last]).flatMap Slot.payload) last.fill
        { s with groups := remove (keyOf f) s.groups } := by
  refine exec_sentence_complete hmany ?_
  rw [reassemble_joined c.now hl (supersedes_eq_false.2 ⟨hcount, hfirst⟩)]
  exact closeGroup_of_filled (g := writeSlot f c.now g) hslots hlen.symm s

/-- A sentence's instruction tells the sentence (R85). -/
theorem eq_of_sentence_eq_toInstr {c : FeedContext} {sid : Sid} {f : SentenceFields} {r : RawSentence}
    (h : sentence sid c f = r.toInstr c) : { sid := sid, fields := f } = r := by
  obtain ⟨sid', f'⟩ := r
  cases sid <;> cases sid' <;> cases h <;> rfl

/-! ### What a sentence leaves alone (R150 to R152) -/

/-- The frame of the sentence-level stage: it changes the table and the output alone; of the table it leaves every key but that of a
fragment it reassembles, save the one group it may evict for capacity and then reports. -/
theorem runSentence_frame (c : FeedContext) (r : RawSentence) (s : State) :
    ∃ (groups : Table) (caps : List (Key × Group)) (final : Record), caps.length ≤ 1 ∧ (∀ e ∈ caps, e ∈ s.groups) ∧
      runSentence c r s =
        .next { s with groups := groups, out := s.out ++ caps.map (evictedRecord .capacity) ++ [final] } ∧
      isFinal c.lineNo final ∧
      ∀ k, r.fields.count = 1 ∨ keyOf r.fields ≠ k →
        lookup k groups = lookup k s.groups ∨ (lookup k groups = none ∧ ∃ g, (k, g) ∈ caps) := by
  by_cases hcount : r.fields.count = 1
  · obtain ⟨final, heq, hfinal⟩ := decodePayload_endsLine c (metaOf r) r.fields.payload r.fields.fill s
    refine ⟨s.groups, [], final, Nat.zero_le 1, by simp, ?_, hfinal.isFinal, fun _ _ => .inl rfl⟩
    rw [runSentence_single hcount, heq, List.map_nil, List.append_nil]
    rfl
  · obtain ⟨final, heq, hfinal⟩ := runSentence_fragment hcount s
    obtain ⟨groups, caps, hlen, hmem, hstate, hothers⟩ := reassemble_frame r.fields c.now s
    rw [hstate] at heq
    exact ⟨groups, caps, final, hlen, hmem, heq, hfinal.isFinal,
      fun k hk => hothers k (hk.resolve_left hcount).symm⟩

/-! ### The table keeps its canonical form -/

theorem tableWf_reassemble {f : SentenceFields} {now : Tick} {s : State} (h : tableWf s.groups = true) :
    tableWf (reassemble f now s).1.groups = true := by
  have close : ∀ (g : Group) (u : State), tableWf u.groups = true → tableWf (closeGroup (keyOf f) g u).1.groups = true := by
    intro g u hu
    cases hfull : allFilled g with
    | true => rw [closeGroup_complete hfull]; exact tableWf_remove _ hu
    | false => rw [closeGroup_pending hfull]; exact tableWf_insert _ _ hu
  rcases openGroup_cases f now s with ⟨g, -, -, heq⟩ | heq <;> rw [heq]
  · exact close _ s h
  · obtain ⟨caps, -, -, hroom⟩ := makeRoom_frame { s with groups := remove (keyOf f) s.groups }
    refine close _ _ ?_
    rw [hroom]
    exact tableWf_filter _ (tableWf_remove _ h)

theorem tableWf_execFeed {line : Line} {now : Tick} {s t : State} (h : tableWf s.groups = true)
    (hrun : execFeed line now s = .next t) : tableWf t.groups = true := by
  have hbegin : tableWf (beginFeed now s).groups = true := tableWf_filter _ h
  cases hp : parse s.build line with
  | error e =>
    cases (execFeed_of_error now hp).symm.trans hrun
    exact hbegin
  | ok r =>
    obtain ⟨u, rec, heq, hu, -⟩ := runSentence_eq (feedContext line now s) r (beginFeed now s)
    rw [execFeed_of_sentence now hp] at hrun
    cases heq.symm.trans hrun
    rcases hu with ⟨rfl, -⟩ | ⟨rfl, -⟩
    · exact hbegin
    · exact tableWf_reassemble hbegin

/-! ### The slots that fragments fill (R156, R159) -/

/-- The fragment is written over its slot. -/
def putFragment (slots : List (Option Slot)) (f : SentenceFields) : List (Option Slot) :=
  slots.set (f.number - 1) (some (slotOf f))

/-- The slots of a message of `n` fragments after the fragments `seen` have arrived. -/
def gather (n : Nat) (seen : List SentenceFields) : List (Option Slot) := seen.foldl putFragment (List.replicate n none)

theorem gather_concat (n : Nat) (seen : List SentenceFields) (f : SentenceFields) :
    gather n (seen ++ [f]) = (gather n seen).set (f.number - 1) (some (slotOf f)) := by
  simp [gather, putFragment]

/-- A slot that no fragment is written into is as it was. -/
theorem foldl_putFragment_getElem? {i : Nat} {seen : List SentenceFields} (h : ∀ f ∈ seen, f.number - 1 ≠ i)
    (slots : List (Option Slot)) : (seen.foldl putFragment slots)[i]? = slots[i]? := by
  induction seen generalizing slots with
  | nil => rfl
  | cons f seen ih =>
    rw [List.foldl_cons, ih fun x hx => h x (List.mem_cons_of_mem _ hx), putFragment,
      List.getElem?_set_ne (h f List.mem_cons_self)]

/-- Fragments in number order fill the slots from the left. -/
theorem foldl_putFragment_of_ordered {k : Nat} {fs : List SentenceFields}
    (h : fs.map SentenceFields.number = List.range' (k + 1) fs.length) (front : List (Option Slot)) (hk : front.length = k) :
    fs.foldl putFragment (front ++ List.replicate fs.length none) = front ++ (fs.map slotOf).map some := by
  induction fs generalizing k front with
  | nil => simp
  | cons f fs ih =>
    simp only [List.map_cons, List.length_cons, List.range'_succ, List.cons.injEq] at h
    obtain ⟨hnumber, hrest⟩ := h
    have hput : putFragment (front ++ List.replicate (fs.length + 1) none) f =
        (front ++ [some (slotOf f)]) ++ List.replicate fs.length none := by
      simp [putFragment, hnumber, ← hk, List.replicate_succ]
    rw [List.foldl_cons, List.length_cons, hput, ih hrest _ (by simp [hk])]
    simp

/-- `fs` are the `n` fragments of the message `message`, which is in number order: each once, in any order. -/
structure FragmentsOf (n : Nat) (message fs : List SentenceFields) : Prop where
  perm    : fs.Perm message
  count   : ∀ f ∈ message, f.count = n
  numbers : message.map SentenceFields.number = List.range' 1 n

namespace FragmentsOf

variable {n : Nat} {message fs seen rest : List SentenceFields} {f : SentenceFields}

theorem count_eq (h : FragmentsOf n message fs) (hf : f ∈ fs) : f.count = n := h.count f (h.perm.mem_iff.1 hf)

theorem number_range (h : FragmentsOf n message fs) (hf : f ∈ fs) : 1 ≤ f.number ∧ f.number ≤ n := by
  have hmem : f.number ∈ message.map SentenceFields.number := List.mem_map_of_mem (h.perm.mem_iff.1 hf)
  rw [h.numbers, List.mem_range'_1] at hmem
  omega

theorem nodup_numbers (h : FragmentsOf n message fs) : (fs.map SentenceFields.number).Nodup := by
  rw [(h.perm.map _).nodup_iff, h.numbers]
  exact List.nodup_range'

theorem length_message (h : FragmentsOf n message fs) : message.length = n := by
  simpa using congrArg List.length h.numbers

/-- A fragment still to come has a number, and so a slot, that no fragment before it has. -/
theorem number_pred_ne (h : FragmentsOf n message (seen ++ rest)) (hf : f ∈ rest) :
    ∀ x ∈ seen, x.number - 1 ≠ f.number - 1 := by
  intro x hx heq
  have hnodup := h.nodup_numbers
  rw [List.map_append, List.nodup_append] at hnodup
  have hne := hnodup.2.2 _ (List.mem_map_of_mem hx) _ (List.mem_map_of_mem hf)
  have hxpos := (h.number_range (List.mem_append_left _ hx)).1
  have hfpos := (h.number_range (List.mem_append_right _ hf)).1
  omega

/-- The slot of a fragment still to come is empty. -/
theorem gather_getElem? (h : FragmentsOf n message (seen ++ rest)) (hf : f ∈ rest) :
    (gather n seen)[f.number - 1]? = some none := by
  have hrange := h.number_range (List.mem_append_right _ hf)
  rw [gather, foldl_putFragment_getElem? (h.number_pred_ne hf), List.getElem?_replicate, if_pos (by omega)]

/-- All the fragments, in whatever order, fill the slots with the message (R159): writes to different slots commute. -/
theorem gather_eq (h : FragmentsOf n message fs) : gather n fs = (message.map slotOf).map some := by
  have hcomm : ∀ x ∈ fs, ∀ y ∈ fs, ∀ slots,
      putFragment (putFragment slots x) y = putFragment (putFragment slots y) x := by
    intro x hx y hy slots
    by_cases hxy : x.number = y.number
    · rw [List.inj_on_of_nodup_map h.nodup_numbers hx hy hxy]
    · have hxpos := (h.number_range hx).1
      have hypos := (h.number_range hy).1
      exact List.set_comm _ _ (by omega)
  have hordered := foldl_putFragment_of_ordered (k := 0) (fs := message) (by rw [h.length_message]; exact h.numbers) [] rfl
  rw [gather, h.perm.foldl_eq' hcomm, ← h.length_message]
  simpa using hordered

end FragmentsOf

/-! ### A group that gathers a message (R153 to R157) -/

/-- What a key holds when the fragments `seen` of a message of `n` have arrived: nothing before the first of them, and then their
slots. -/
def Gathers (n : Nat) (seen : List SentenceFields) : Option Group → Prop
  | none => seen = []
  | some g => g.count = n ∧ g.slots = gather n seen

section Gathering

variable {n : Nat} {message seen rest : List SentenceFields} {f : SentenceFields} {s : State}

/-- The next fragment of the message goes into the group that gathers it: it supersedes nothing (R153, R154), and the first one makes
the group. -/
theorem reassemble_of_gathers (now : Tick) (hmessage : FragmentsOf n message (seen ++ f :: rest))
    (hgroup : Gathers n seen (lookup (keyOf f) s.groups)) :
    ∃ g u, reassemble f now s = closeGroup (keyOf f) g u ∧ g.count = n ∧ g.slots = gather n (seen ++ [f]) := by
  have hcount : f.count = n := hmessage.count_eq (by simp)
  cases hl : lookup (keyOf f) s.groups with
  | none =>
    rw [hl] at hgroup
    obtain rfl : seen = [] := hgroup
    exact ⟨_, _, reassemble_created now hl, hcount, by rw [gather_concat, writeSlot_slots, newGroup_slots, hcount]; rfl⟩
  | some g =>
    rw [hl] at hgroup
    obtain ⟨hg, hslots⟩ := hgroup
    have hjoin : supersedes f g = false := by
      refine supersedes_eq_false.2 ⟨hg.trans hcount.symm, fun hfirst => ?_⟩
      have hempty := hmessage.gather_getElem? (f := f) List.mem_cons_self
      rw [hfirst, ← hslots] at hempty
      simpa [slotAt] using congrArg Option.join hempty
    exact ⟨_, _, reassemble_joined now hl hjoin, hg, by rw [gather_concat, writeSlot_slots, hslots]⟩

/-- A fragment with others still to come leaves the message pending and its group gathering (R156). -/
theorem reassemble_pending_of_gathers (now : Tick) (hmessage : FragmentsOf n message (seen ++ f :: rest))
    (hrest : rest ≠ []) (hgroup : Gathers n seen (lookup (keyOf f) s.groups)) :
    ∃ u filled, reassemble f now s = (u, .pending (keyOf f) filled) ∧
      Gathers n (seen ++ [f]) (lookup (keyOf f) u.groups) := by
  obtain ⟨g, u, heq, hcount, hslots⟩ := reassemble_of_gathers now hmessage hgroup
  obtain ⟨f', hf'⟩ := List.exists_mem_of_ne_nil rest hrest
  have hmessage' : FragmentsOf n message ((seen ++ [f]) ++ rest) := by simpa using hmessage
  have hopen : allFilled g = false := by
    rw [allFilled, List.all_eq_false]
    exact ⟨none, List.mem_of_getElem? (hslots ▸ hmessage'.gather_getElem? hf'), by simp⟩
  rw [closeGroup_pending hopen] at heq
  exact ⟨_, _, heq, by rw [lookup_insert_self]; exact ⟨hcount, hslots⟩⟩

/-- The last fragment to come completes the message, and its group is gone (R157). -/
theorem reassemble_complete_of_gathers {ordered : List SentenceFields} {last : SentenceFields} (now : Tick)
    (hmessage : FragmentsOf n (ordered ++ [last]) (seen ++ [f])) (hgroup : Gathers n seen (lookup (keyOf f) s.groups)) :
    ∃ u, reassemble f now s = (u, .complete ((ordered ++ [last]).flatMap SentenceFields.payload) last.fill) ∧
      lookup (keyOf f) u.groups = none := by
  obtain ⟨g, u, heq, hcount, hslots⟩ := reassemble_of_gathers now hmessage hgroup
  have hfilled : g.slots = (ordered.map slotOf ++ [slotOf last]).map some := by
    rw [hslots, hmessage.gather_eq, List.map_append, List.map_singleton]
  have hlen : g.count = (ordered.map slotOf).length + 1 := by
    rw [hcount, ← hmessage.length_message]
    simp
  have hpayload : (ordered.map slotOf ++ [slotOf last]).flatMap Slot.payload =
      (ordered ++ [last]).flatMap SentenceFields.payload := by
    simp [List.flatMap_map, slotOf]
  rw [closeGroup_of_filled hfilled hlen, hpayload] at heq
  exact ⟨_, heq, lookup_remove_self _ _⟩

end Gathering

/-- The fragments still to come of a message, one after the other, are pending until the last, which completes it (R159). -/
theorem reassembleAll_of_gathers {n : Nat} {key : Key} {ordered seen : List SentenceFields} {last : SentenceFields}
    {arrivals : List (SentenceFields × Tick)} {s : State} (hne : arrivals ≠ []) (hkey : ∀ x ∈ arrivals, keyOf x.1 = key)
    (hmessage : FragmentsOf n (ordered ++ [last]) (seen ++ arrivals.map Prod.fst))
    (hgroup : Gathers n seen (lookup key s.groups)) :
    ∃ pending, reassembleAll arrivals s =
        pending ++ [.complete ((ordered ++ [last]).flatMap SentenceFields.payload) last.fill] ∧
      ∀ r ∈ pending, ∃ filled, r = .pending key filled := by
  induction arrivals generalizing seen s with
  | nil => exact absurd rfl hne
  | cons x xs ih =>
    obtain rfl := hkey x List.mem_cons_self
    by_cases hxs : xs = []
    · subst hxs
      obtain ⟨u, heq, -⟩ := reassemble_complete_of_gathers x.2 hmessage hgroup
      exact ⟨[], by simp [reassembleAll, heq], by simp⟩
    · obtain ⟨u, filled, heq, hgroup'⟩ := reassemble_pending_of_gathers x.2 hmessage (by simpa using hxs) hgroup
      obtain ⟨pending, hall, hpending⟩ :=
        ih hxs (fun y hy => hkey y (List.mem_cons_of_mem _ hy)) (by simpa using hmessage) hgroup'
      exact ⟨.pending (keyOf x.1) filled :: pending, by simp [reassembleAll, heq, hall],
        List.forall_mem_cons.2 ⟨⟨filled, rfl⟩, hpending⟩⟩

/-! ### FEEDs and TICKs one after the other (R159) -/

/-- The instruction is an operation of the port other than RESET. -/
inductive FeedOrTick : Instr → Prop
  | feed (line : Line) (now : Tick) : FeedOrTick (.feed line now)
  | tick (now : Tick) : FeedOrTick (.tick now)

theorem fragmentOf_eq_some {b : Build} {key : Key} {line : Line} {now : Tick} {r : RawSentence} :
    fragmentOf b key (.feed line now) = some r ↔ parse b line = .ok r ∧ r.fields.count ≠ 1 ∧ keyOf r.fields = key := by
  cases hp : parse b line with
  | error e => simp [fragmentOf, hp]
  | ok r' =>
    simp only [fragmentOf, hp, Option.ite_none_right_eq_some, Option.some.injEq, Except.ok.injEq]
    constructor
    · rintro ⟨h, rfl⟩; exact ⟨rfl, h⟩
    · rintro ⟨rfl, h⟩; exact ⟨h, rfl⟩

theorem fragmentOf_tick (b : Build) (key : Key) (now : Tick) : fragmentOf b key (.tick now) = none := rfl

/-- A FEED or a TICK answers a next state of the same build, and keeps the table's form. -/
theorem FeedOrTick.exec_eq {i : Instr} (hi : FeedOrTick i) (s : State) :
    ∃ t, exec i s = .next t ∧ t.build = s.build ∧ (tableWf s.groups = true → tableWf t.groups = true) := by
  cases hi with
  | tick now => exact ⟨_, rfl, rfl, tableWf_filter _⟩
  | feed line now =>
    obtain ⟨groups, caps, final, -, -, heq, -⟩ := execFeed_spec line now s
    exact ⟨_, heq, rfl, fun h => tableWf_execFeed h heq⟩

/-- The eviction that a FEED begins with reports in the FEED's output, so it leaves a key of which no record tells. -/
theorem lookup_beginFeed_of_unreported {key : Key} {line : Line} {now : Tick} {s t : State}
    (hwf : tableWf s.groups = true) (hrun : execFeed line now s = .next t)
    (hkept : ∀ r ∈ t.out, evictsKey key r = false) : lookup key (beginFeed now s).groups = lookup key s.groups := by
  obtain ⟨groups, caps, final, -, -, heq, -⟩ := execFeed_spec line now s
  cases heq.symm.trans hrun
  refine lookup_evictIdle_of_unreported (s := countLine (beginOutput s)) hwf fun r hr => hkept r ?_
  exact List.mem_append_left _ (List.mem_append_left _ hr)

/-- A FEED or a TICK without a fragment for the key, no record of which tells of the key, leaves the key's group as it is. -/
theorem lookup_of_no_fragment {i : Instr} {key : Key} {s t : State} (hi : FeedOrTick i) (hwf : tableWf s.groups = true)
    (hrun : exec i s = .next t) (hkept : ∀ r ∈ t.out, evictsKey key r = false)
    (hnone : fragmentOf s.build key i = none) : lookup key t.groups = lookup key s.groups := by
  cases hi with
  | tick now =>
    cases hrun
    exact lookup_evictIdle_of_unreported (s := beginOutput s) hwf hkept
  | feed line now =>
    rw [← lookup_beginFeed_of_unreported hwf hrun hkept]
    cases hp : parse s.build line with
    | error e =>
      cases (execFeed_of_error now hp).symm.trans hrun
      rfl
    | ok r =>
      have hother : r.fields.count = 1 ∨ keyOf r.fields ≠ key := by
        by_contra hcon
        push Not at hcon
        simp [fragmentOf_eq_some.2 ⟨hp, hcon⟩] at hnone
      obtain ⟨groups, caps, final, -, -, heq, -, hlookup⟩ :=
        runSentence_frame (feedContext line now s) r (beginFeed now s)
      cases (((execFeed_of_sentence now hp).trans heq).symm.trans hrun)
      refine (hlookup key hother).resolve_right ?_
      rintro ⟨-, g, hg⟩
      have hreported : evictsKey key (evictedRecord .capacity (key, g)) = false :=
        hkept _ (List.mem_append_left _ (List.mem_append_right _ (List.mem_map_of_mem hg)))
      simp [evictsKey, evictedRecord] at hreported

section Interleaving

variable {n : Nat} {key : Key}

/-- A FEED of a fragment with others still to come ends in a Buffered record, and the key's group goes on gathering. -/
theorem feed_of_gathers_pending {message seen rest : List SentenceFields} {line : Line} {now : Tick} {r : RawSentence}
    {s : State} (hfrag : fragmentOf s.build key (.feed line now) = some r)
    (hmessage : FragmentsOf n message (seen ++ r.fields :: rest)) (hrest : rest ≠ [])
    (hgroup : Gathers n seen (lookup key (beginFeed now s).groups)) :
    ∃ t filled, exec (.feed line now) s = .next t ∧ t.out.getLast? = some (.buffered s.feedCount key n filled) ∧
      Gathers n (seen ++ [r.fields]) (lookup key t.groups) := by
  obtain ⟨hp, hmany, rfl⟩ := fragmentOf_eq_some.1 hfrag
  obtain ⟨u, filled, heq, hgroup'⟩ := reassemble_pending_of_gathers now hmessage hrest hgroup
  refine ⟨_, filled, (execFeed_of_sentence now hp).trans (runSentence_pending hmany heq), ?_, hgroup'⟩
  rw [emit_out, List.getLast?_concat, hmessage.count_eq (by simp)]
  rfl

/-- The FEED of the last fragment to come decodes the message, in a state without a group under the key. -/
theorem feed_of_gathers_complete {ordered seen : List SentenceFields} {last : SentenceFields} {line : Line} {now : Tick}
    {r : RawSentence} {s : State} (hfrag : fragmentOf s.build key (.feed line now) = some r)
    (hmessage : FragmentsOf n (ordered ++ [last]) (seen ++ [r.fields]))
    (hgroup : Gathers n seen (lookup key (beginFeed now s).groups)) :
    ∃ v, lookup key v.groups = none ∧
      exec (.feed line now) s =
        decodePayload { lineNo := s.feedCount, raw := line, now := now } (metaOf r)
          ((ordered ++ [last]).flatMap SentenceFields.payload) last.fill v := by
  obtain ⟨hp, hmany, rfl⟩ := fragmentOf_eq_some.1 hfrag
  obtain ⟨v, heq, hnone⟩ := reassemble_complete_of_gathers now hmessage hgroup
  exact ⟨v, hnone, (execFeed_of_sentence now hp).trans (runSentence_complete hmany heq)⟩

/-- The fragments that a list of operations brings to the key, in their order. -/
def fragmentsOf (b : Build) (key : Key) (ops : List Instr) : List SentenceFields :=
  (ops.filterMap (fragmentOf b key)).map RawSentence.fields

theorem fragmentsOf_cons_none {b : Build} {i : Instr} (h : fragmentOf b key i = none) (ops : List Instr) :
    fragmentsOf b key (i :: ops) = fragmentsOf b key ops := by
  simp [fragmentsOf, h]

theorem fragmentsOf_cons_some {b : Build} {i : Instr} {r : RawSentence} (h : fragmentOf b key i = some r)
    (ops : List Instr) : fragmentsOf b key (i :: ops) = r.fields :: fragmentsOf b key ops := by
  simp [fragmentsOf, h]

theorem fragmentsOf_append (b : Build) (ops ops' : List Instr) :
    fragmentsOf b key (ops ++ ops') = fragmentsOf b key ops ++ fragmentsOf b key ops' := by
  simp [fragmentsOf]

/-- The records of a run are those of its first part and then those of the rest, from the state between (R101). -/
theorem recordsOf_append {before : List Instr} {s u : State} (h : runAll before s = some u) (after : List Instr) :
    recordsOf (before ++ after) s = recordsOf before s ++ recordsOf after u := by
  induction before generalizing s with
  | nil =>
    cases h
    rfl
  | cons i is ih =>
    cases hi : exec i s with
    | next t => simp [recordsOf, hi, ih (by simpa [runAll, hi] using h)]
    | fault e => simp [runAll, hi] at h
    | refused e => simp [runAll, hi] at h

/-- FEEDs and TICKs before the last fragment of a message gather it: between its fragments nothing touches the key's group, and each
fragment leaves it pending. -/
theorem runAll_of_gathers {message seen rest : List SentenceFields} {before after : List Instr} {s : State}
    (hports : ∀ i ∈ before, FeedOrTick i) (hwf : tableWf s.groups = true) (hrest : rest ≠ [])
    (hmessage : FragmentsOf n message (seen ++ fragmentsOf s.build key before ++ rest))
    (hgroup : Gathers n seen (lookup key s.groups))
    (hkept : ∀ r ∈ recordsOf (before ++ after) s, evictsKey key r = false) :
    ∃ u, runAll before s = some u ∧ u.build = s.build ∧ tableWf u.groups = true ∧
      Gathers n (seen ++ fragmentsOf s.build key before) (lookup key u.groups) ∧
      ∀ r ∈ recordsOf after u, evictsKey key r = false := by
  induction before generalizing s seen with
  | nil => exact ⟨s, rfl, rfl, hwf, by simpa [fragmentsOf] using hgroup, hkept⟩
  | cons i is ih =>
    obtain ⟨hi, hports'⟩ := List.forall_mem_cons.1 hports
    obtain ⟨t, hrun, hbuild, hwf'⟩ := hi.exec_eq s
    rw [List.cons_append, recordsOf, hrun] at hkept
    obtain ⟨hout, hlater⟩ := List.forall_mem_append.1 hkept
    rw [← hbuild] at hmessage ⊢
    rw [runAll, hrun]
    cases hfrag : fragmentOf t.build key i with
    | none =>
      rw [fragmentsOf_cons_none hfrag] at hmessage ⊢
      rw [← lookup_of_no_fragment hi hwf hrun hout (hbuild ▸ hfrag)] at hgroup
      exact ih hports' (hwf' hwf) hmessage hgroup hlater
    | some r =>
      rw [fragmentsOf_cons_some hfrag] at hmessage ⊢
      cases hi with
      | tick now => simp [fragmentOf_tick] at hfrag
      | feed line now =>
        rw [← lookup_beginFeed_of_unreported hwf hrun hout] at hgroup
        obtain ⟨t', filled, heq, -, hgroup'⟩ :=
          feed_of_gathers_pending (rest := fragmentsOf t.build key is ++ rest) (hbuild ▸ hfrag) (by simpa using hmessage)
            (by simp [hrest]) hgroup
        cases heq.symm.trans hrun
        simpa using ih hports' (hwf' hwf) (by simpa using hmessage) hgroup' hlater

end Interleaving

/-! ### The obligations -/

/-- Settles O60: the run before the FEED gathers the fragments that have arrived, its own eviction leaves their group, and whether
another fragment is to come decides how the FEED ends. -/
theorem interleavedFragmentsCompleteTheMessage : Obligations.InterleavedFragmentsCompleteTheMessage := by
  intro s key n ops ordered last hwf _ hl hports hperm hcount hnumbers hkept before after line now r hops hfrag
  subst hops
  have hports' : ∀ i ∈ before, FeedOrTick i := by
    intro i hi
    rcases hports i (List.mem_append_left _ hi) with ⟨now, rfl⟩ | ⟨line, now, rfl⟩
    · exact .tick now
    · exact .feed line now
  have hmessage : FragmentsOf n (ordered ++ [last])
      (fragmentsOf s.build key before ++ r.fields :: fragmentsOf s.build key after) := by
    rw [← fragmentsOf_cons_some hfrag, ← fragmentsOf_append]
    exact ⟨hperm, hcount, hnumbers⟩
  obtain ⟨u, hrun, hbuild, hwf', hgroup, hkept'⟩ :=
    runAll_of_gathers (seen := []) hports' hwf (List.cons_ne_nil _ _) hmessage (by rw [hl]; rfl) hkept
  obtain ⟨t, heq, -, -⟩ := (FeedOrTick.feed line now).exec_eq u
  rw [recordsOf, heq] at hkept'
  rw [List.nil_append, ← lookup_beginFeed_of_unreported hwf' heq (List.forall_mem_append.1 hkept').1] at hgroup
  rw [← hbuild] at hfrag hmessage hgroup ⊢
  refine ⟨u, hrun, fun hafter => ?_, fun hafter => ?_⟩
  · have hrest : fragmentsOf u.build key after ≠ [] := by simpa [fragmentsOf] using hafter
    obtain ⟨t, filled, heq, hlast, -⟩ := feed_of_gathers_pending hfrag hmessage hrest hgroup
    exact ⟨t, filled, heq, hlast⟩
  · exact feed_of_gathers_complete hfrag (by simpa [fragmentsOf, hafter] using hmessage) hgroup

/-- Settles O23: a key without a group gathers no fragments, and the arrivals are all of them. -/
theorem reassemblyIsOrderInsensitive : Obligations.ReassemblyIsOrderInsensitive := by
  intro s key n arrivals ordered last _ hl hall hperm hnumbers
  have hne : arrivals ≠ [] := by
    rintro rfl
    simpa using hperm.length_eq
  have hcount : ∀ f ∈ ordered ++ [last], f.count = n := by
    intro f hf
    obtain ⟨x, hx, rfl⟩ := List.mem_map.1 (hperm.mem_iff.2 hf)
    exact (hall x hx).2
  exact reassembleAll_of_gathers (seen := []) hne (fun x hx => (hall x hx).1) ⟨hperm, hcount, hnumbers⟩ (by rw [hl]; rfl)

/-- Settles O8: the evicted groups are the sorted idle ones. -/
theorem tickEvictsExactlyTheIdleGroups : Obligations.TickEvictsExactlyTheIdleGroups := by
  intro now s
  refine ⟨_, evictSort (s.groups.filter (fun e => isIdle s.cfgIdleTicks now e.2)), rfl, ?_, ?_, rfl, ?_, rfl⟩
  · simpa only [isIdle_eq] using evictSort_perm _
  · exact (evictSort_pairwise _).imp fun h => (evictLe_iff _ _).1 h
  · simp only [evictIdle_groups, beginOutput_groups, beginOutput_cfgIdleTicks, isIdle_eq]

/-- Settles O10: it is the list that a record gives of a group. -/
theorem filledNumbersAreThoseOfTheFilledSlots : Obligations.FilledNumbersAreThoseOfTheFilledSlots :=
  listsFilled_filledNumbers

/-- Settles O11: the first TICK leaves no group over the threshold. -/
theorem idleEvictionReportsOnce : Obligations.IdleEvictionReportsOnce := by
  intro now s t hrun
  cases hrun
  exact congrArg Host.Outcome.next (evictIdle_of_none_idle fun e he => isIdle_of_mem_evictIdle (s := beginOutput s) he)

/-- Settles O12: a TICK is idle eviction. -/
theorem tickRemovesAGroupExactlyWhenAged : Obligations.TickRemovesAGroupExactlyWhenAged :=
  fun _ s _ _ hwf hl => ⟨_, rfl, lookup_evictIdle (s := beginOutput s) hwf hl⟩

/-- Settles O17: the decode of a payload emits one final record and leaves the table alone (R110). -/
theorem singleFragmentBypassesTheTable : Obligations.SingleFragmentBypassesTheTable := by
  intro sid c f s hcount
  have hbypass := (exec_sentence sid c f s).trans (runSentence_single hcount s)
  obtain ⟨r, heq, hfinal⟩ := decodePayload_endsLine c (metaOf { sid := sid, fields := f }) f.payload f.fill s
  exact ⟨r, hbypass.trans heq, hfinal.isFinal, hbypass⟩

/-- Settles O18: the table has room, so making it changes nothing. -/
theorem firstFragmentOpensAGroup : Obligations.FirstFragmentOpensAGroup := by
  intro sid c f s hcount hpos hle hl hroom
  refine exec_sentence_opens hcount hpos hle ?_
  rw [reassemble_created c.now hl, makeRoom_of_lt hroom]

/-- Settles O19: room is made by evicting the head of the eviction order (R162). -/
theorem fullTableEvictsTheStalestGroup : Obligations.FullTableEvictsTheStalestGroup := by
  intro sid c f s hcount hpos hle hl hne hfull
  obtain ⟨e, he, hleast, hevict⟩ := evictForCapacity_spec s hne
  refine ⟨e, he, fun e' he' => (evictLe_iff e e').1 (hleast e' he'), ?_⟩
  have hreassemble := reassemble_created c.now hl
  rw [makeRoom_of_full hfull, hevict] at hreassemble
  rw [exec_sentence_opens hcount hpos hle hreassemble, emit_out, List.append_assoc]
  rfl

/-- Settles O20: the slot that stays empty keeps the group open, and the record lists the group's filled numbers. -/
theorem fragmentJoinsItsPendingGroup : Obligations.FragmentJoinsItsPendingGroup := by
  rintro sid c f s g hcount hpos hle hl hsame hfirst hlen ⟨j, hj1, hj2, hjne, hempty⟩
  have hread : ∀ i, slotAt (writeSlot f c.now g) i = if i = f.number then some (slotOf f) else slotAt g i :=
    fun i => slotAt_writeSlot hpos (by rw [hlen, hsame]; exact hle)
  have hopen : allFilled (writeSlot f c.now g) = false := by
    by_contra hfull
    have hfilled := allFilled_iff.1 (Bool.not_eq_false _ ▸ hfull) j hj1 (by simpa [hlen] using hj2)
    simp [hread, hjne, hempty] at hfilled
  refine ⟨filledNumbers (writeSlot f c.now g), fun i => ?_, filledNumbers_pairwise _, ?_⟩
  · rw [mem_filledNumbers, hread]
    by_cases hi : i = f.number <;> simp [hi]
  · exact exec_sentence_stores (Nat.ne_of_gt hcount) hopen
      (reassemble_joined c.now hl (supersedes_eq_false.2 ⟨hsame, hfirst⟩))

/-- Settles O21: the completed group goes to the decode, which emits one final record and leaves the table alone. -/
theorem lastFragmentCompletesTheMessage : Obligations.LastFragmentCompletesTheMessage := by
  intro sid c f s g front last hcount _ _ hl hsame hfirst hlen hslots
  have hdecode := exec_sentence_last (sid := sid) (c := c) (Nat.ne_of_gt hcount) hl hsame hfirst hlen hslots
  obtain ⟨r, heq, hfinal⟩ := decodePayload_endsLine c (metaOf { sid := sid, fields := f })
    ((front ++ [last]).flatMap Slot.payload) last.fill { s with groups := remove (keyOf f) s.groups }
  exact ⟨hdecode, r, hdecode.trans heq, hfinal.isFinal⟩

/-- Settles O22: the removal of the superseded group makes the room (R155). -/
theorem supersessionIsSilent : Obligations.SupersessionIsSilent := by
  intro sid c f s g hcount hpos hle hcap hl hsupersedes
  refine exec_sentence_opens (u := { s with groups := remove (keyOf f) s.groups }) hcount hpos hle ?_
  rw [reassemble_superseded c.now hl (by simpa [supersedes] using hsupersedes), makeRoom_remove hl hcap]

/-- Settles O24, by the frame of the sentence-level stage. -/
theorem otherGroupsAreLeftAlone : Obligations.OtherGroupsAreLeftAlone := by
  intro sid c f s
  obtain ⟨groups, caps, final, hlen, hmem, heq, hfinal, hothers⟩ := runSentence_frame c { sid := sid, fields := f } s
  exact ⟨_, (exec_sentence sid c f s).trans heq, rfl, caps, final, hlen, hmem, rfl, hfinal,
    fun k hk => hothers k (.inr hk.symm)⟩

/-- Settles O57: the state in which the sentence runs is that of `beginFeed`, whose output is idle evictions alone. -/
theorem agedGroupIsGoneBeforeTheLine : Obligations.AgedGroupIsGoneBeforeTheLine := by
  intro line now s k g i hwf hl hdecode
  obtain ⟨r, hp, rfl⟩ := decode_sentence_eq_ok.1 hdecode
  refine ⟨beginFeed now s, ?_, rfl, rfl, rfl, rfl, rfl, fun rec hrec => ?_, ?_⟩
  · exact (execFeed_of_sentence now hp).trans (exec_toInstr _ r _).symm
  · obtain ⟨e, -, rfl⟩ := mem_out_evictIdle_beginOutput hrec
    exact ⟨rfl, rfl⟩
  · exact lookup_evictIdle (s := countLine (beginOutput s)) hwf hl

/-- Settles O58: the aged group is gone before the line, so the fragment makes a new one, whatever room it takes. -/
theorem lateFragmentStartsANewGroup : Obligations.LateFragmentStartsANewGroup := by
  intro line now s g sid f hwf hl haged hmany hdecode
  obtain ⟨r, hp, hinstr⟩ := decode_sentence_eq_ok.1 hdecode
  obtain rfl : { sid := sid, fields := f } = r := eq_of_sentence_eq_toInstr hinstr
  have hrange := numbersInRange_of_parse hp
  have hcount : 2 ≤ f.count := lt_of_le_of_ne (hrange.number_ge.trans hrange.number_le) hmany.symm
  have hgone : lookup (keyOf f) (beginFeed now s).groups = none :=
    (lookup_evictIdle (s := countLine (beginOutput s)) hwf hl).trans (if_pos haged)
  have hfeed := (execFeed_of_sentence now hp).trans (exec_sentence sid (feedContext line now s) f _).symm
  have hopens := exec_sentence_opens (sid := sid) (c := feedContext line now s) hcount hrange.number_ge hrange.number_le
    (reassemble_created now hgone)
  refine ⟨_, hfeed.trans hopens, ?_, ?_⟩
  · exact lookup_insert_self _ _ _
  · exact List.getLast?_concat

/-- Settles O59: the joined payload is decoded, and the decode runs the message it spells (R110). -/
theorem completedMessageRunsTheMessageItSpells : Obligations.CompletedMessageRunsTheMessageItSpells := by
  intro b sid c f s g front last bits i hcount _ _ hl hsame hfirst hlen hslots harmor hdecode
  exact (exec_sentence_last (Nat.ne_of_gt hcount) hl hsame hfirst hlen hslots).trans (decodePayload_of_decode harmor hdecode _)

end Sys2Proof.Machine

/-! SUPPORT. Family 43_armor_decoder.md: the length and the bits of an expansion, what the decode of a payload is, the padding of the
encoder, and the obligations of the armor decoder. -/

namespace Sys2Proof

/-! ### The bits of six-bit values (R181) -/

theorem length_flatMap_bitsOf (values : List (BitVec 6)) : (values.flatMap bitsOf).length = 6 * values.length := by
  induction values with
  | nil => rfl
  | cons v vs ih => rw [List.flatMap_cons, List.length_append, length_bitsOf, ih, List.length_cons]; ring

theorem flatMap_bitsOf_getElem? {values : List (BitVec 6)} {i j : Nat} {v : BitVec 6} (hv : values[i]? = some v) (hj : j < 6) :
    (values.flatMap bitsOf)[6 * i + j]? = some (v.getLsbD (5 - j)) := by
  induction values generalizing i with
  | nil => simp at hv
  | cons u us ih =>
    cases i with
    | zero =>
      obtain rfl : u = v := by simpa using hv
      rw [List.flatMap_cons, List.getElem?_append_left (by simpa [length_bitsOf] using hj), Nat.mul_zero, Nat.zero_add,
        bitsOf_getElem? u j hj, BitVec.getMsbD, decide_eq_true hj, Bool.true_and]
    | succ i =>
      rw [List.flatMap_cons, List.getElem?_append_right (by rw [length_bitsOf]; omega), length_bitsOf,
        show 6 * (i + 1) + j - 6 = 6 * i + j by omega]
      exact ih (by simpa using hv)

/-- Two values that differ in their `k` lowest bits alone have the same bits before those (R11). -/
theorem take_bitsOf_congr {w k : Nat} {u v : BitVec w} (h : u.toNat / 2 ^ k = v.toNat / 2 ^ k) :
    (bitsOf u).take (w - k) = (bitsOf v).take (w - k) := by
  rw [bitsOf, bitsOf, ← List.map_take, ← List.map_take, List.take_range, Nat.min_eq_left (Nat.sub_le ..)]
  refine List.map_congr_left fun i hi => ?_
  have hi : i < w - k := List.mem_range.1 hi
  have hbit (x : BitVec w) : x.getMsbD i = (x.toNat / 2 ^ k).testBit (w - 1 - i - k) := by
    rw [Nat.testBit_div_two_pow, show w - 1 - i - k + k = w - 1 - i by omega, BitVec.testBit_toNat, BitVec.getMsbD,
      decide_eq_true (by omega), Bool.true_and]
  rw [hbit, hbit, h]

/-! ### The decode of a payload (R180 to R185) -/

theorem length_eq_of_values {payload : Line} {values : List (BitVec 6)} (h : payload.map armorValue = values.map some) :
    payload.length = values.length := by
  simpa using congrArg List.length h

/-- A payload in the alphabet decodes to the bits of its values, without the fill bits (R181, R182). -/
theorem armorDecode_of_values {payload : Line} {values : List (BitVec 6)} (fill : Fin 6)
    (h : payload.map armorValue = values.map some) :
    armorDecode payload fill = .ok ((values.flatMap bitsOf).take (armorLength payload.length fill)) := by
  rw [armorDecode, expandArmor_ok h]

/-- The last character's value gives the bitstream its bits but the last `fill` (R182). -/
theorem armorDecode_concat {front : Line} {values : List (BitVec 6)} (fill : Fin 6)
    (h : front.map armorValue = values.map some) (v : BitVec 6) :
    armorDecode (front ++ [armorByte v]) fill = .ok (values.flatMap bitsOf ++ (bitsOf v).take (6 - fill.val)) := by
  have hlen : armorLength (front ++ [armorByte v]).length fill = (values.flatMap bitsOf).length + (6 - fill.val) := by
    rw [length_flatMap_bitsOf, List.length_append, List.length_singleton, length_eq_of_values h, armorLength,
      if_pos (by omega)]
    omega
  rw [armorDecode_of_values (values := values ++ [v]) fill (by simp [h, armorValue_armorByte]), hlen,
    List.flatMap_append, List.take_length_add_append, List.flatMap_singleton]

theorem armorDecode_of_lowest_invalid {before after : Line} {byte : Byte} (fill : Fin 6)
    (h : ∀ c ∈ before, (armorValue c).isSome = true) (hb : armorValue byte = none) :
    armorDecode (before ++ byte :: after) fill = .error (.invalidArmor before.length byte) := by
  rw [armorDecode, expandArmor_error h hb, Nat.zero_add]

theorem armorLength_le (n : Nat) (fill : Fin 6) : armorLength n fill ≤ 6 * n := by
  unfold armorLength; split_ifs <;> omega

/-- Either every byte of a payload is in the alphabet, or there is a lowest index whose byte is outside it (R71, R183). -/
theorem exists_values_or_lowest_invalid (payload : Line) :
    (∃ values : List (BitVec 6), payload.map armorValue = values.map some) ∨
    ∃ before byte after, payload = before ++ byte :: after ∧ (∀ c ∈ before, (armorValue c).isSome = true) ∧
      armorValue byte = none := by
  induction payload with
  | nil => exact .inl ⟨[], rfl⟩
  | cons c cs ih =>
    cases hc : armorValue c with
    | none => exact .inr ⟨[], c, cs, rfl, by simp, hc⟩
    | some v =>
      rcases ih with ⟨vs, hvs⟩ | ⟨before, byte, after, rfl, hbefore, hbyte⟩
      · exact .inl ⟨v :: vs, by simp [hc, hvs]⟩
      · exact .inr ⟨c :: before, byte, after, rfl, by simpa [hc] using hbefore, hbyte⟩

/-! ### The encoder's groups (R186) -/

theorem length_armorGroups (n : Nat) (bs : Bits) : (armorGroups n bs).length = n := by
  simpa using congrArg List.length (armorGroups_map n bs)

/-- The padding fills the last group of six bits. -/
theorem add_fillFor (m : Nat) : m + (fillFor m).val = 6 * ((m + 5) / 6) := by
  simp only [fillFor]; omega

theorem armorLength_fillFor (m : Nat) : armorLength ((m + 5) / 6) (fillFor m) = m := by
  have hpad := add_fillFor m
  unfold armorLength; split_ifs <;> omega

end Sys2Proof

namespace Sys2Proof.Machine

/-! ### The obligations -/

/-- Settles O35: the groups of the padded sequence expand to it (`flatMap_bitsOf_groups`), and the fill drops the padding. -/
theorem armorRoundTrip : Obligations.ArmorRoundTrip := by
  refine fun bits _ => ⟨rfl, ?_⟩
  have hpadded : (bits ++ List.replicate (fillFor bits.length).val false).length = 6 * ((bits.length + 5) / 6) := by
    rw [List.length_append, List.length_replicate, add_fillFor]
  rw [armorEncode, armorDecode_of_values _ (armorGroups_map ..), flatMap_bitsOf_groups _ _ hpadded, length_armorGroups,
    armorLength_fillFor, List.take_left]

/-- Settles O37: the bitstream is the values' bits without the fill bits, and a truncation leaves the bits before it. -/
theorem armorBitsAreMostSignificantFirst : Obligations.ArmorBitsAreMostSignificantFirst := by
  intro values payload fill hvalues
  have hlen : ((values.flatMap bitsOf).take (armorLength payload.length fill)).length = armorLength payload.length fill := by
    rw [List.length_take, length_flatMap_bitsOf, ← length_eq_of_values hvalues, Nat.min_eq_left (armorLength_le ..)]
  refine ⟨_, armorDecode_of_values fill hvalues, hlen, fun i j v hj hbit hv => ?_⟩
  rw [List.getElem?_take_of_lt (hlen ▸ hbit), flatMap_bitsOf_getElem? hv hj]

/-- Settles O38: the expansion stops at the lowest invalid byte, and its error is the one record. -/
theorem lowestInvalidArmorByteIsReported : Obligations.LowestInvalidArmorByteIsReported := by
  intro before after byte fill hbefore hbyte
  have hdecode := armorDecode_of_lowest_invalid (after := after) fill hbefore hbyte
  exact ⟨hdecode, fun _ _ s => decodePayload_of_armor_error hdecode s⟩

/-- Settles O39: an invalid byte in front fails both payloads alike; otherwise both end within the last character's bits, whose
leading ones agree (`take_bitsOf_congr`). -/
theorem fillBitsAreNotInspected : Obligations.FillBitsAreNotInspected := by
  intro front v w fill hquot
  rcases exists_values_or_lowest_invalid front with ⟨values, hvalues⟩ | ⟨before, byte, after, rfl, hbefore, hbyte⟩
  · rw [armorDecode_concat fill hvalues, armorDecode_concat fill hvalues, take_bitsOf_congr hquot]
  · have hdecode (x : BitVec 6) : armorDecode (before ++ byte :: after ++ [armorByte x]) fill =
        .error (.invalidArmor before.length byte) := by
      rw [List.append_assoc, List.cons_append, armorDecode_of_lowest_invalid fill hbefore hbyte]
    rw [hdecode, hdecode]

/-- Settles O40: no character gives no bit, and no bit is too few for a type. -/
theorem emptyPayloadIsTruncated : Obligations.EmptyPayloadIsTruncated :=
  fun _ _ _ s => ⟨rfl, decodePayload_of_message_error (e := .truncated none 0 6) rfl rfl s⟩

end Sys2Proof.Machine

/-! SUPPORT. Family 44_field_extractor.md: the extractor's errors, the trimming of a text field, the classes of the values, the
reports, and the obligations of the field extractor. -/

namespace Sys2Proof

/-! ### The extractor's errors (R190 to R193) -/

theorem requiredLength_eq_none {t : Nat} : requiredLength t = none ↔ t = 0 ∨ 6 ≤ t := by
  unfold requiredLength
  split_ifs <;> simp <;> omega

theorem decodeMessage_of_no_type {bs : Bits} (h : bs.length < 6) :
    decodeMessage bs = .error (.truncated none bs.length 6) := if_pos h

theorem decodeMessage_of_unsupported {bs : Bits} (h : 6 ≤ bs.length) (ht : requiredLength (U bs 0 6) = none) :
    decodeMessage bs = .error (.unsupportedType (U bs 0 6)) := by
  rw [decodeMessage, if_neg (Nat.not_lt.2 h), ht]

theorem decodeMessage_of_too_short {bs : Bits} {need : Nat} (h : 6 ≤ bs.length) (ht : requiredLength (U bs 0 6) = some need)
    (hshort : bs.length < need) : decodeMessage bs = .error (.truncated (some (U bs 0 6)) bs.length need) := by
  rw [decodeMessage, if_neg (Nat.not_lt.2 h), ht]
  exact if_pos hshort

end Sys2Proof

namespace Sys2Proof.Machine

/-! ### Text fields (R221) -/

theorem isPadding_iff {c : Byte} : isPadding c = true ↔ c = 0x40#8 ∨ c = 0x20#8 := by simp [isPadding]

/-- The characters of a field are its text and the padding that was removed. -/
theorem textChars_eq_text_append (m : Nat) (v : BitVec (6 * m)) :
    textChars m v = text m v ++ (textChars m v).rtakeWhile isPadding := (List.rdropWhile_append_rtakeWhile ..).symm

theorem isPadding_getLast?_text {m : Nat} {v : BitVec (6 * m)} {c : Byte} (h : (text m v).getLast? = some c) :
    ¬ isPadding c = true := by
  obtain ⟨hne, rfl⟩ := List.mem_getLast?_eq_getLast h
  exact List.rdropWhile_last_not _ _ hne

/-! ### Classes (R206 to R211) -/

theorem lonClass_eq_outOfRange_iff {lon : Int} :
    lonClass lon = .outOfRange ↔ lon ≠ 108600000 ∧ (108000000 < lon ∨ lon < -108000000) := by
  unfold lonClass
  split_ifs <;> simp <;> omega

theorem latClass_eq_outOfRange_iff {lat : Int} :
    latClass lat = .outOfRange ↔ lat ≠ 54600000 ∧ (54000000 < lat ∨ lat < -54000000) := by
  unfold latClass
  split_ifs <;> simp <;> omega

theorem cogClass_eq_outOfRange_iff {cog : Nat} : cogClass cog = .outOfRange ↔ 3600 < cog := by
  unfold cogClass
  split_ifs <;> simp <;> omega

theorem headingClass_eq_unavailable_iff {heading : Nat} : headingClass heading = .unavailable ↔ heading = 511 := by
  unfold headingClass
  split_ifs <;> simp [*]

theorem headingClass_eq_outOfRange_iff {heading : Nat} :
    headingClass heading = .outOfRange ↔ 360 ≤ heading ∧ heading ≤ 510 := by
  unfold headingClass
  split_ifs <;> simp <;> omega

/-- No heading of nine bits is over 511. -/
theorem headingClass_eq_available_iff {heading : Nat} (h : heading < 2 ^ 9) :
    headingClass heading = .available ↔ heading < 360 := by
  unfold headingClass
  split_ifs <;> simp <;> omega

/-! ### Reports (R200 to R203, R214) -/

theorem flagBit_eq (v : BitVec 1) : flagBit v = decide (v.toNat = 1) :=
  decide_eq_decide.2 BitVec.toNat_inj.symm

/-- The three position messages differ in the type they report alone (R203). -/
theorem exec_position {c : MessageContext} {bitlen t : Nat} {f : PositionFields} {i : Instr}
    (h : t = 1 ∧ i = .msg1 c bitlen f ∨ t = 2 ∧ i = .msg2 c bitlen f ∨ t = 3 ∧ i = .msg3 c bitlen f) (s : State) :
    exec i s = .next (emit (.decoded c.lineNo c.info c.fillUsed bitlen (.position (positionReport t f))) s) := by
  rcases h with ⟨rfl, rfl⟩ | ⟨rfl, rfl⟩ | ⟨rfl, rfl⟩ <;> rfl

theorem exec_msg4 (c : MessageContext) (bitlen : Nat) (f : BaseStationFields) (s : State) :
    exec (.msg4 c bitlen f) s =
      .next (emit (.decoded c.lineNo c.info c.fillUsed bitlen (.baseStation (baseStationReport f))) s) := rfl

/-! ### The obligations -/

/-- Settles O41: each clause is the extractor's error of that name, and the error is the one record of the decode. -/
theorem shortAndUnsupportedMessagesAreReported : Obligations.ShortAndUnsupportedMessagesAreReported := by
  intro c info payload fill s bits harmor
  refine ⟨fun hshort => ?_, fun hsix => ⟨fun htype => ?_, fun need htype hshort => ?_⟩⟩
  · exact decodePayload_of_message_error harmor (decodeMessage_of_no_type hshort) s
  · exact decodePayload_of_message_error harmor (decodeMessage_of_unsupported hsix (requiredLength_eq_none.2 htype)) s
  · have hneed : requiredLength (U bits 0 6) = some need := requiredLength_eq_some.2 (by simpa using htype)
    exact decodePayload_of_message_error harmor (decodeMessage_of_too_short hsix hneed hshort) s

/-- Settles O48: the characters stand at their bits (`textChars_field`), and the trimming splits off padding alone. -/
theorem textIsTrimmedOfTrailingPadding : Obligations.TextIsTrimmedOfTrailingPadding := by
  intro bits a m hlen
  refine ⟨⟨_, (textChars_field hlen).symm.trans (textChars_eq_text_append ..), fun c hc => ?_⟩, fun c hc => ?_⟩
  · exact isPadding_iff.1 (List.mem_rtakeWhile_imp hc)
  · exact not_or.1 (isPadding_iff.not.1 (isPadding_getLast?_text hc))

/-- Settles O45: the record is `positionReport`, whose accuracy is its bit (R202). -/
theorem positionMessagesEmitTheirReport : Obligations.PositionMessagesEmitTheirReport := by
  intro c bitlen f s t i hi
  rw [exec_position hi, positionReport, flagBit_eq, emit]

/-- Settles O46: the record is `baseStationReport`, whose accuracy is its bit. -/
theorem baseStationMessageEmitsItsReport : Obligations.BaseStationMessageEmitsItsReport := by
  intro c bitlen f s
  rw [exec_msg4, baseStationReport, flagBit_eq, emit]

/-- Settles O47: the record is `staticVoyage`. -/
theorem staticMessageEmitsItsReport : Obligations.StaticMessageEmitsItsReport := fun _ _ _ _ => rfl

/-- Settles O49, class by class; a heading has nine bits. -/
theorem availabilityClassesAreTheSpecs : Obligations.AvailabilityClassesAreTheSpecs :=
  ⟨fun _ => rfl,
    fun _ => ⟨lonClass_eq_unavailable_iff, lonClass_eq_outOfRange_iff, lonClass_eq_available_iff⟩,
    fun _ => ⟨latClass_eq_unavailable_iff, latClass_eq_outOfRange_iff, latClass_eq_available_iff⟩,
    fun _ => ⟨cogClass_eq_unavailable_iff, cogClass_eq_outOfRange_iff, cogClass_eq_available_iff⟩,
    fun heading => ⟨headingClass_eq_unavailable_iff, headingClass_eq_outOfRange_iff,
      headingClass_eq_available_iff heading.isLt⟩⟩

/-- Settles O50, along the branches of each class; a second has six bits, so 63 is all that the last branch leaves. -/
theorem turnRateAndSecondClassesAreTheSpecs : Obligations.TurnRateAndSecondClassesAreTheSpecs := by
  refine ⟨fun rot => ?_, fun second => ?_⟩
  · unfold rotClass
    split_ifs with hunavailable hright hleft
    · simp [hunavailable]
    · simp [hright]
    · simp [hleft]
    · simp [hunavailable, hright, hleft]
  · have hsecond := second.isLt
    unfold secondClass
    split_ifs with havailable h60 h61 h62
    · simp only [true_iff, false_iff]; omega
    · simp [h60]
    · simp [h61]
    · simp [h62]
    · simp only [true_iff, false_iff]; omega

end Sys2Proof.Machine

/-! SUPPORT. Family 60_exceptions.md: the Error record of a failure, the step of one engine among several, and the obligations of the
exceptions. -/

namespace Sys2Proof.Machine

/-! ### Error records (R242) -/

theorem errorRecord_malformed (n : Tick) (why : Malformed) (raw : Line) :
    errorRecord n (.malformed why) raw = .error n 1 (subCode why) .empty raw := rfl

/-! ### One engine among several (R262) -/

/-- An engine's step, where it has one, replaces that engine's state and reads no other. -/
theorem stepAt_eq_next_iff {i : Nat} {engines a : List State} :
    Fleet.stepAt i engines = .next a ↔ ∃ s s', engines[i]? = some s ∧ step s = .next s' ∧ a = engines.set i s' := by
  unfold Fleet.stepAt
  cases engines[i]? with
  | none => simp
  | some s => cases hstep : step s <;> simp [hstep, eq_comm]

/-- An engine that has a step still has it, with the same next state, after another engine's state is replaced. -/
theorem stepAt_set_of_ne {i j : Nat} {engines b : List State} (hij : i ≠ j) (h : Fleet.stepAt j engines = .next b) (s : State) :
    Fleet.stepAt j (engines.set i s) = .next (b.set i s) := by
  obtain ⟨t, t', ht, hstep, rfl⟩ := stepAt_eq_next_iff.1 h
  exact stepAt_eq_next_iff.2 ⟨t, t', (List.getElem?_set_ne hij).trans ht, hstep, List.set_comm t' s hij.symm⟩

/-! ### The obligations -/

/-- Settles O55: a step of one engine is a replacement of its state (`stepAt_eq_next_iff`), which no step of another engine sees
(`stepAt_set_of_ne`), and replacements at different places commute. -/
theorem enginesDoNotInterfere : Obligations.EnginesDoNotInterfere := by
  intro engines a b i j hij hi hj
  obtain ⟨s, s', -, -, rfl⟩ := stepAt_eq_next_iff.1 hi
  obtain ⟨t, t', -, -, rfl⟩ := stepAt_eq_next_iff.1 hj
  refine ⟨⟨(engines.set j t').set i s', stepAt_set_of_ne hij hj s', ?_⟩, fun k hk => List.getElem?_set_ne hk.symm⟩
  rw [← List.set_comm s' t' hij]
  exact stepAt_set_of_ne hij.symm hi t'

/-- Settles O14: a FEED whose line does not parse is a TICK, a line number and the Error record (`execFeed_of_error`). -/
theorem unparsedLineCostsOneErrorRecord : Obligations.UnparsedLineCostsOneErrorRecord :=
  fun _ now s _ hparse => ⟨evictIdle now (beginOutput s), rfl, execFeed_of_error now hparse⟩

/-- Settles O34: each Malformed sub-code by `errorRecord_malformed`, each other kind by its own row of the code table. -/
theorem errorRecordsCarryTheirCodes : Obligations.ErrorRecordsCarryTheirCodes := by
  intro n raw a b i l k t o
  have malformed := fun why => errorRecord_malformed n why raw
  exact ⟨malformed .lineTooLong, malformed .noStart, malformed .noStar, malformed .badChecksumField, malformed .fieldCount,
    malformed .badAddress, malformed .badCount, malformed .badNumber, malformed .numberExceedsCount, malformed .badSeqId,
    malformed .badChannel, malformed .badFill, rfl, rfl, rfl, rfl⟩

end Sys2Proof.Machine

/-! SUPPORT. Family 70_reset_and_hazards.md: what RESET keeps, the engine before its first RESET, and the obligations of RESET. -/

namespace Sys2Proof.Machine

/-! ### What RESET does (R102, R273, R274) -/

/-- A RESET with `max_groups` below 1 is refused (R274). -/
theorem exec_reset_of_refused {m : Option Nat} (t : Option Tick) (s : State) (hm : maxGroupsOperand m < 1) :
    exec (.reset m t) s = .next (beginOutput s) := if_pos hm

/-- The items a RESET writes aside, refused or not, the state stays as it was. -/
theorem exec_reset_frame {m : Option Nat} {t : Option Tick} {s u : State} (hrun : exec (.reset m t) s = .next u) :
    u.build = s.build ∧ u.inbox = s.inbox := by
  by_cases hm : maxGroupsOperand m < 1
  · cases (exec_reset_of_refused t s hm).symm.trans hrun
    exact ⟨rfl, rfl⟩
  · cases (resetLoadsConfigurationAndEmptiesTable m t s (Nat.le_of_not_lt hm)).symm.trans hrun
    exact ⟨rfl, rfl⟩

/-! ### Before the first RESET (R270, R274, R275) -/

theorem present_unbooted_of_refused_reset {m : Option Nat} (t : Option Tick) (b : Build) (hm : maxGroupsOperand m < 1) :
    Boot.present { code := 0#8, operands := [natOperand m, tickOperand t] } (.unbooted b) = .next (.unbooted b) := by
  simp only [Boot.present, decodeOp_resetWord, if_pos hm]

/-- A valid first RESET runs on the blank state (R270). -/
theorem present_unbooted_of_reset {m : Option Nat} {t : Option Tick} {b : Build} {u : State} (hm : 1 ≤ maxGroupsOperand m)
    (hrun : exec (.reset m t) (blankState b) = .next u) :
    Boot.present { code := 0#8, operands := [natOperand m, tickOperand t] } (.unbooted b) = .next (.running u) := by
  simp only [Boot.present, decodeOp_resetWord, if_neg (Nat.not_lt.2 hm), hrun]

/-! ### The obligations -/

/-- Settles O3: 0 is below 1, so the RESET is refused, in a running engine and in one without state. -/
theorem refusedResetChangesNothing : Obligations.RefusedResetChangesNothing :=
  fun t s b => ⟨exec_reset_of_refused t s Nat.one_pos, present_unbooted_of_refused_reset (m := some 0) t b Nat.one_pos⟩

/-- Settles O4: the second RESET writes every item but the build parameters and the port (O2), and those the first one kept
(`exec_reset_frame`). -/
theorem secondResetLeavesNoTraceOfTheFirst : Obligations.SecondResetLeavesNoTraceOfTheFirst := by
  intro m m' t t' s u hfirst hm'
  obtain ⟨hbuild, hinbox⟩ := exec_reset_frame hfirst
  refine ⟨_, resetLoadsConfigurationAndEmptiesTable m' t' s hm', ?_⟩
  rw [resetLoadsConfigurationAndEmptiesTable m' t' u hm', hbuild, hinbox]

/-- Settles O5: FEED and TICK decode to operations other than RESET, for which the engine without state has no transition; a valid
RESET runs on the blank state, of which the build parameters alone stay (O2). -/
theorem engineHasNoStateBeforeReset : Obligations.EngineHasNoStateBeforeReset :=
  fun b _ _ m t =>
    ⟨rfl, rfl, fun hm => present_unbooted_of_reset hm (resetLoadsConfigurationAndEmptiesTable m t (blankState b) hm)⟩

end Sys2Proof.Machine
